-- ==== Sys2Proof/Word.lean ====
section
/-! DEFINITION. The two word types of the frame codec: the byte of the wire and of the command port
(00_scope.md R11), and the 32-bit MalformedFrame counter (R8). -/

namespace Sys2Proof

/-- An unsigned 8-bit value with bits numbered 7 down to 0 (R11). -/
abbrev Byte := BitVec 8

/-- The MalformedFrame counter's width, CNT_WIDTH = 32, wrapping modulo 2^32 (R8). -/
abbrev Counter := BitVec 32

end Sys2Proof
end

