-- ==== Sys2Proof/Config.lean ====
section
/-! DEFINITION. The two parameters that the spec leaves OPEN for an implementation (00_scope.md section 4).
The model takes them as an argument: `State.cfg` holds them, no operation writes them, and a claim about
every state is a claim about every legal value (log entries 4 and 5). -/

namespace Sys2Proof

/-- What an implementation fixes. -/
structure Config where
  /-- MAX_PAYLOAD, the largest payload length ENCODE accepts; legal range 0 to 254 (R7). -/
  maxPayload : Fin 255
  /-- OUT_DEPTH, how many response bytes the response port can hold; `none` is the unbounded port that the
  spec's model takes (R9). -/
  outDepth : Option Nat
deriving DecidableEq, Repr

/-- The parameters the spec's test vectors use, MAX_PAYLOAD = 254 (R7), with the unbounded response port (R9). -/
def Config.reference : Config := { maxPayload := 254, outDepth := none }

end Sys2Proof
end

