-- ==== Sys2Proof/Syntax.lean ====
section
/-! DEFINITION. The syntax of the command port: the transaction as the port frames it (30_encoding.md R70), and the
operation it decodes to (R79), one constructor per row of spec/opcode_table.json. The eighth alternative of R79,
`Illegal`, has no row: it is a result of the decoder (Decode.lean, log entry 7). -/

namespace Sys2Proof

/-- One request of the command port: the header OP, A, B and then B data bytes (R70). -/
structure Transaction where
  op : Byte
  a : Byte
  b : Byte
  data : List Byte
deriving DecidableEq, Repr

/-- The operations of R71, with the operands that R72 gives each. -/
inductive Instr where
  /-- RESET, OP 0x01 (R180). -/
  | reset
  /-- STATUS, OP 0x02 (R181). -/
  | status
  /-- CSUM_GEN, OP 0x10, of the DATA bytes (R103). -/
  | csumGen (data : List Byte)
  /-- CSUM_CHECK, OP 0x11, of the DATA bytes (R104). -/
  | csumCheck (data : List Byte)
  /-- ENCODE, OP 0x20, of the command id in A and the payload in DATA (R120). -/
  | encode (cmd : Byte) (payload : List Byte)
  /-- FEED, OP 0x30, of the received byte in A (R141). -/
  | feed (b : Byte)
  /-- FEEDN, OP 0x31, of the received bytes in DATA (R149). -/
  | feedn (data : List Byte)
deriving DecidableEq, Repr

end Sys2Proof
end

