-- ==== Sys2Proof/Machine/State.lean ====
section
/-! DEFINITION. The state of the frame codec: the spec's own record `st` of exactly three fields (10_state.md R20), and
around it what a closed machine needs: the agents' submitted bytes and the order of acceptance (20_memory.md R48), the
response port (30_encoding.md R75, R53) and the implementation's parameters (00_scope.md R7, R9). The codec has no
registers, no program counter, no flags and no memory (R24, R25, R26, R40). -/

namespace Sys2Proof.Machine

/-- The two agents that submit operations (R48). -/
inductive Agent where
  /-- Expected to submit ENCODE, CSUM_GEN, CSUM_CHECK, STATUS and RESET. -/
  | host
  /-- Expected to submit FEED and FEEDN; the expectation is not checked (R208). -/
  | transport
deriving DecidableEq, Repr

/-- The status of a response (60_exceptions.md R201). -/
inductive Status where
  /-- The operation was performed. -/
  | ok
  /-- A reserved OP, or a non-zero must-be-0 field (R73, R74). -/
  | illegalOp
  /-- ENCODE with more than MAX_PAYLOAD bytes (R120). -/
  | invalidArgument
  /-- An operation other than RESET before any RESET (R21). -/
  | notInit
deriving DecidableEq, Repr

/-- The one response of a transaction, the status and RDATA (R75). -/
structure Response where
  status : Status
  rdata : List Byte
deriving DecidableEq, Repr

/-- The codec's state `st`, exactly three fields (R20). -/
structure Codec where
  /-- A RESET has been applied since power-on (R21). -/
  init : Bool
  /-- The receive buffer in stream order, the head first (R22). -/
  buf : List Byte
  /-- The MalformedFrame counter (R23). -/
  malf : Counter
deriving DecidableEq, Repr

/-- The machine. Only `st` is the spec's state; the other fields are its inputs, observations and parameters (R29). -/
structure State where
  /-- The codec's own state (R20). -/
  st : Codec
  /-- Transaction bytes that the host agent has submitted and the port has not accepted, oldest first (R48, R70). -/
  hostQ : List Byte
  /-- The same of the transport agent. -/
  transportQ : List Byte
  /-- Whose operation the port accepts next, and next after that: the free interleaving as plain data (R48). -/
  grants : List Agent
  /-- The response port: responses not yet read, oldest first (R75, R53). -/
  responses : List Response
  /-- The implementation's parameters; no operation writes them (R7, R9, R231). -/
  cfg : Config
deriving DecidableEq, Repr

/-- The codec has no trap, no exception and no handler, and no operation ends without a response (R200, R75): no step of
this machine faults, so the type has no constructor and no claim can rest on a fault. Safe. -/
inductive Fault
deriving DecidableEq, Repr

/-- Why the model gives an instruction no meaning. -/
inductive Refusal where
  /-- Raised by an arm of `exec` whose instruction has no meaning yet; no arm raises it now. Safe: the model stops. -/
  | notModelled (mnemonic : String)
deriving DecidableEq, Repr

/-- The machine right after the RESET operation (R31): init true, buf empty, malf 0. The ports are empty, the response port
is unbounded (R9) and MAX_PAYLOAD is the value of the spec's vectors (log entries 2 to 5). -/
def State.reset : State :=
  { st := { init := true, buf := [], malf := 0#32 }
    hostQ := []
    transportQ := []
    grants := []
    responses := []
    cfg := Config.reference }

/-- The machine at power-on: init false, and `buf` and `malf` whatever they are, since the spec leaves them unspecified
(R30). They are arguments, so that a claim about power-on holds for all contents (log entry 3). DESIGN CHOICE: the ports
(`hostQ`, `transportQ`, `grants`, `responses`) are empty; R29 and R30 give them no value at power-on (log entry 17). -/
def State.powerOn (cfg : Config) (buf : List Byte) (malf : Counter) : State :=
  { st := { init := false, buf := buf, malf := malf }
    hostQ := []
    transportQ := []
    grants := []
    responses := []
    cfg := cfg }

end Sys2Proof.Machine
end

