-- ==== Sys2Proof/Machine/Flags.lean ====
section
/-! DEFINITION. What an operation reports: the status codes (60_exceptions.md R201), the bytes of a response (30_encoding.md
R75), and the status record SR with its bits INIT and STALL (10_state.md R27). The codec keeps no flag as state (R26). -/

namespace Sys2Proof.Machine

/-- The code of a status (R201). -/
def Status.code : Status → Byte
  | .ok => 0x00#8
  | .illegalOp => 0x01#8
  | .invalidArgument => 0x02#8
  | .notInit => 0x03#8

/-- The status of a code; `none` for the reserved codes 0x04 to 0xFF, which a model that receives one refuses
(R201, 93_implementation_defined.md U9). -/
def statusOfCode (c : Byte) : Option Status :=
  if c = 0x00#8 then some .ok
  else if c = 0x01#8 then some .illegalOp
  else if c = 0x02#8 then some .invalidArgument
  else if c = 0x03#8 then some .notInit
  else none

/-- The response as bytes, [S] ++ RDATA (R75). -/
def Response.bytes (r : Response) : List Byte := r.status.code :: r.rdata

/-- SR byte 0: INIT in bit 0, STALL in bit 1, bits 7 to 2 read as 0 (R27). -/
def statusFlags (st : Codec) : Byte :=
  (if st.init then 0x01#8 else 0x00#8) ||| (if 1 ≤ st.buf.length then 0x02#8 else 0x00#8)

/-- LEVEL, the 9-bit number of buffered bytes (R27). -/
def level (st : Codec) : BitVec 9 := BitVec.ofNat 9 st.buf.length

/-- The 7-byte status record SR, LEVEL and MALF with the least significant byte first (R27, R44, R181). -/
def statusRecord (st : Codec) : List Byte :=
  [statusFlags st,
   (level st).extractLsb' 0 8,
   ((level st).extractLsb' 8 1).setWidth 8,
   st.malf.extractLsb' 0 8,
   st.malf.extractLsb' 8 8,
   st.malf.extractLsb' 16 8,
   st.malf.extractLsb' 24 8]

end Sys2Proof.Machine
end

