-- ==== Sys2Proof/Machine/Operands.lean ====
section
/-! DEFINITION. The byte-sequence operands and what is computed of them: the 8-bit sum, its generation and its validation
(40_checksum.md R100 to R102), the wire frame and its record (30_encoding.md R60 to R63, R69), and the frame list of a
response (R76). -/

namespace Sys2Proof.Machine

/-! ### The checksum arithmetic -/

/-- Σ s, the natural-number sum of the bytes (00_scope.md R12). -/
def sumBytes (s : List Byte) : Nat := (s.map BitVec.toNat).sum

/-- Sum8(s) = (Σ s) mod 256 (R100). -/
def sum8 (s : List Byte) : Nat := sumBytes s % 256

/-- Csum(s) = (256 − Sum8(s)) mod 256 (R101). -/
def csum (s : List Byte) : Byte := BitVec.ofNat 8 ((256 - sum8 s) % 256)

/-- Valid8(w): Sum8(w) = 0 (R102). -/
def valid8 (w : List Byte) : Bool := sum8 w == 0

/-! ### The frame -/

/-- The record of a frame (R69). -/
structure Frame where
  /-- LEN, payload length + 1 (R61). -/
  len : Byte
  /-- CMD, an opaque byte (R67). -/
  cmd : Byte
  /-- PAYLOAD, opaque bytes in order (R43, R60). -/
  payload : List Byte
  /-- CSUM, the checksum trailer (R62). -/
  csum : Byte
deriving DecidableEq, Repr

/-- The frame's bytes in wire order, [len, cmd] ++ payload ++ [csum] (R69, R42). -/
def Frame.raw (f : Frame) : List Byte := [f.len, f.cmd] ++ f.payload ++ [f.csum]

/-- The record of a window, when the window is a valid frame: at least three bytes, a length byte of at least 1, exactly
length byte + 2 bytes, and the sum 0 (R63); the fields are w[0], w[1], w[2..len] and w[len + 1] (R69). -/
def parseFrame (w : List Byte) : Option Frame :=
  match w with
  | l :: c :: rest =>
    if l ≠ 0#8 ∧ valid8 w = true then
      match rest.drop (l.toNat - 1) with
      | [cs] => some { len := l, cmd := c, payload := rest.take (l.toNat - 1), csum := cs }
      | _ => none
    else none
  | _ => none

/-- The frame that ENCODE builds: L = n + 1, then [L, cmd] ++ p and the checksum of those bytes (R61, R62, R120). -/
def buildFrame (cmd : Byte) (payload : List Byte) : List Byte :=
  let f := [BitVec.ofNat 8 (payload.length + 1), cmd] ++ payload
  f ++ [csum f]

/-! ### The frame list of a response -/

/-- [k] ++ raw(F1) ++ … ++ raw(Fk) (R76). -/
def serializeFrames (fs : List Frame) : List Byte :=
  BitVec.ofNat 8 fs.length :: fs.flatMap Frame.raw

/-- The consumer's reading of k concatenated windows, each delimited by its own byte 0 (R76). -/
def parseRaws : Nat → List Byte → Option (List Frame)
  | 0, [] => some []
  | 0, _ :: _ => none
  | _ + 1, [] => none
  | k + 1, l :: rest =>
    match parseFrame ((l :: rest).take (l.toNat + 2)), parseRaws k ((l :: rest).drop (l.toNat + 2)) with
    | some f, some fs => some (f :: fs)
    | _, _ => none

/-- The consumer's reading of the RDATA of FEED and FEEDN (R76). -/
def parseFrameList : List Byte → Option (List Frame)
  | [] => none
  | k :: rest => parseRaws k.toNat rest

end Sys2Proof.Machine
end

