-- ==== Sys2Proof/Machine/Ops.lean ====
section
/-! DEFINITION. The shared operations of the meanings: the buffer primitives (20_memory.md R41), the response that ends an
operation and the one way an operation fails (00_scope.md R13, 60_exceptions.md R201), the codec's reset (43_control.md
R180), and the extraction state machine (42_decoder.md R140 to R147). -/

namespace Sys2Proof.Machine

/-! ### Buffer primitives (R41) -/

/-- BufPush(b): the buffer grows by one byte at its end. -/
def Codec.bufPush (b : Byte) (st : Codec) : Codec := { st with buf := st.buf ++ [b] }

/-- BufDrop(k): the k oldest bytes leave. It requires 1 ≤ k ≤ len(buf), which the scan tests first (R142; log entry 9). -/
def Codec.bufDrop (k : Nat) (st : Codec) : Codec := { st with buf := st.buf.drop k }

/-- BufClear(): used only by RESET. -/
def Codec.bufClear (st : Codec) : Codec := { st with buf := [] }

/-- BufPeek(i); `none` where the requirement i < len(buf) does not hold, so that no value is read there. -/
def Codec.bufPeek (i : Nat) (st : Codec) : Option Byte := st.buf[i]?

/-! ### Responses and errors -/

/-- respond(status, data): the operation's one response enters the response port behind the earlier ones (R13, R75). -/
def State.respond (status : Status) (rdata : List Byte) (s : State) : State :=
  { s with responses := s.responses ++ [{ status := status, rdata := rdata }] }

/-- raise <Error>: the code with an empty RDATA, and no state change. This is the codec's whole error mechanism: nothing is
saved and control goes nowhere (R13, R200, R201). -/
def State.raise (e : Status) (s : State) : State := s.respond e []

/-- `if not st.init: raise NOT_INIT`, before anything the operation does (R201, R204). -/
def State.whenInit (s : State) (perform : State → State) : State :=
  if s.st.init then perform s else s.raise .notInit

/-- The machine with another codec state, all else as it is. -/
def State.withCodec (s : State) (st : Codec) : State := { s with st := st }

/-- The values that RESET gives: buf empty, malf 0, init true (R31, R180). -/
def Codec.reset (st : Codec) : Codec := { st.bufClear with malf := 0#32, init := true }

/-! ### The extraction state machine -/

/-- The control state, a function of `buf` (R140). -/
inductive ControlState where
  /-- No byte is buffered. -/
  | empty
  /-- The head L ≥ 1 waits for the rest of its window; k bytes are buffered, k ≤ L + 1. -/
  | collect (L k : Nat)
  /-- The head is 0 (R145). -/
  | zero
  /-- The head's window of L + 2 bytes is complete. -/
  | eval (L : Nat)
deriving DecidableEq, Repr

/-- The table of R140; the order of the tests is that of R142. -/
def controlState (st : Codec) : ControlState :=
  match st.bufPeek 0 with
  | none => .empty
  | some head =>
    if head = 0#8 then .zero
    else if st.buf.length < head.toNat + 2 then .collect head.toNat st.buf.length
    else .eval head.toNat

/-- The codec and the frames emitted so far by the operation in progress (R142's `out`). -/
structure Scan where
  st : Codec
  out : List Frame
deriving DecidableEq, Repr

/-- Discard(): the head alone is dropped and counted, modulo 2^32 (R144, R202). -/
def Scan.discard (sc : Scan) : Scan :=
  { sc with st := { sc.st.bufDrop 1 with malf := sc.st.malf + 1#32 } }

/-- Accept(w, out): the frame is appended and its whole window dropped; malf is unchanged (R143). -/
def Scan.accept (f : Frame) (sc : Scan) : Scan :=
  { st := sc.st.bufDrop (f.len.toNat + 2), out := sc.out ++ [f] }

/-- One pass of the loop of R142: `none` where it returns, in cases (a) and (c), and the state after the pass in cases (b),
(d) and (e). The window of case (d) has the right length, so it is a frame iff Valid8 holds of it. -/
def scanPass (sc : Scan) : Option Scan :=
  match controlState sc.st with
  | .empty => none
  | .zero => some sc.discard
  | .collect _ _ => none
  | .eval L =>
    match parseFrame (sc.st.buf.take (L + 2)) with
    | some f => some (sc.accept f)
    | none => some sc.discard

/-- At most `passes` passes of the loop. -/
def scanLoop : Nat → Scan → Scan
  | 0, sc => sc
  | passes + 1, sc =>
    match scanPass sc with
    | none => sc
    | some sc' => scanLoop passes sc'

/-- Extract(out): the loop of R142, which ends within len(buf) + 1 passes (R146; log entry 10). -/
def extract (sc : Scan) : Scan := scanLoop (sc.st.buf.length + 1) sc

/-- BufPush(b); Extract(out) (R141, R149). -/
def receiveByte (sc : Scan) (b : Byte) : Scan := extract { sc with st := sc.st.bufPush b }

/-- The bytes of one operation, in order, Extract after every byte (R149). -/
def receive (bs : List Byte) (st : Codec) : Scan := bs.foldl receiveByte { st := st, out := [] }

/-- The codec moves on to the scan's result, and the frames are answered as a frame list (R76). -/
def State.finishReceive (sc : Scan) (s : State) : State :=
  (s.withCodec sc.st).respond .ok (serializeFrames sc.out)

end Sys2Proof.Machine
end

