-- ==== Sys2Proof/Machine/Checksum.lean ====
section
/-! DEFINITION. CSUM_GEN and CSUM_CHECK (40_checksum.md). -/

namespace Sys2Proof.Machine

/-- CSUM_GEN: answers Csum(DATA) and writes nothing (R103). -/
def execCsumGen (data : List Byte) (s : State) : Host.Outcome State Fault Refusal :=
  .next (s.whenInit fun s => s.respond .ok [csum data])

/-- CSUM_CHECK: answers 0x01 if Valid8(DATA), else 0x00, and writes nothing (R104). -/
def execCsumCheck (data : List Byte) (s : State) : Host.Outcome State Fault Refusal :=
  .next (s.whenInit fun s => s.respond .ok [if valid8 data then 0x01#8 else 0x00#8])

end Sys2Proof.Machine
end

