-- ==== Sys2Proof/Machine/Control.lean ====
section
/-! DEFINITION. RESET and STATUS (43_control.md). -/

namespace Sys2Proof.Machine

/-- RESET: the codec takes its reset values; legal before any RESET too, and the responses already given stay (R180). -/
def execReset (s : State) : Host.Outcome State Fault Refusal :=
  .next ((s.withCodec s.st.reset).respond .ok [])

/-- STATUS: answers the status record and writes nothing (R181). -/
def execStatus (s : State) : Host.Outcome State Fault Refusal :=
  .next (s.whenInit fun s => s.respond .ok (statusRecord s.st))

end Sys2Proof.Machine
end

