-- ==== Sys2Proof/Machine/Encoder.lean ====
section
/-! DEFINITION. ENCODE (41_encoder.md). -/

namespace Sys2Proof.Machine

/-- ENCODE: refuses a payload longer than MAX_PAYLOAD with INVALID_ARGUMENT and no bytes, else answers the frame in wire
order; it writes nothing (R120). -/
def execEncode (cmd : Byte) (payload : List Byte) (s : State) : Host.Outcome State Fault Refusal :=
  .next (s.whenInit fun s =>
    if s.cfg.maxPayload.val < payload.length then s.raise .invalidArgument
    else s.respond .ok (buildFrame cmd payload))

end Sys2Proof.Machine
end

