-- ==== Sys2Proof/Machine/Extraction.lean ====
section
/-! DEFINITION. FEED and FEEDN (42_decoder.md). -/

namespace Sys2Proof.Machine

/-- FEED: pushes the byte, extracts, and answers the frames emitted (R141). -/
def execFeed (b : Byte) (s : State) : Host.Outcome State Fault Refusal :=
  .next (s.whenInit fun s => s.finishReceive (receive [b] s.st))

/-- FEEDN: pushes the bytes in order, extracting after each, and answers the frames emitted (R149). -/
def execFeedn (data : List Byte) (s : State) : Host.Outcome State Fault Refusal :=
  .next (s.whenInit fun s => s.finishReceive (receive data s.st))

end Sys2Proof.Machine
end

