-- ==== Sys2Proof/Machine/Dispatch.lean ====
section
/-! DEFINITION. One arm per operation, each a direct call of its meaning. -/

namespace Sys2Proof.Machine

def exec (i : Instr) (s : State) : Host.Outcome State Fault Refusal :=
  match i with
  | .reset => Sys2Proof.Machine.execReset s
  | .status => Sys2Proof.Machine.execStatus s
  | .csumGen data => Sys2Proof.Machine.execCsumGen data s
  | .csumCheck data => Sys2Proof.Machine.execCsumCheck data s
  | .encode cmd payload => Sys2Proof.Machine.execEncode cmd payload s
  | .feed b => Sys2Proof.Machine.execFeed b s
  | .feedn data => Sys2Proof.Machine.execFeedn data s

end Sys2Proof.Machine
end

