-- ==== Sys2Proof/WellFormed.lean ====
section
/-! DEFINITION. Which transactions and operations the command port can carry: the data length is the byte B, so it is
0 to 255 (30_encoding.md R70, R72). -/

namespace Sys2Proof

/-- A transaction carries exactly B data bytes (R70). -/
abbrev Transaction.WellFormed (t : Transaction) : Prop := t.data.length = t.b.toNat

/-- The DATA bytes of an operation (R71). -/
def Instr.data : Instr → List Byte
  | .reset => []
  | .status => []
  | .csumGen data => data
  | .csumCheck data => data
  | .encode _ payload => payload
  | .feed _ => []
  | .feedn data => data

/-- An operation that some transaction carries: its data length fits B, any value 0 to 255 (R72). -/
abbrev Instr.WellFormed (i : Instr) : Prop := i.data.length ≤ 255

end Sys2Proof
end

