-- ==== Sys2Proof/Decode.lean ====
section
/-! DEFINITION. Framing, decoding and encoding of the command port (30_encoding.md part B), and the opcode table as data.
Framing goes by B alone (R70); decoding is total, checks OP first and then the reserved fields, and rejects by name
(R73, R74, R79). -/

namespace Sys2Proof

/-! ### Framing (R70) -/

/-- The bytes of a transaction, in the order OP, A, B, DATA (R70). -/
def Transaction.bytes (t : Transaction) : List Byte := t.op :: t.a :: t.b :: t.data

/-- The port takes the first transaction off its input: a 3-byte header and exactly B data bytes, whatever OP holds (R70).
`none` while the transaction has not fully arrived. -/
def takeTransaction : List Byte → Option (Transaction × List Byte)
  | op :: a :: b :: rest =>
    if b.toNat ≤ rest.length then some (⟨op, a, b, rest.take b.toNat⟩, rest.drop b.toNat) else none
  | _ => none

/-! ### Decoding (R71 to R74, R79) -/

/-- Why a transaction is illegal. -/
inductive Illegal where
  /-- OP is not in the table of R71 (R73). -/
  | reservedOp (op : Byte)
  /-- OP is legal and A or B, which must be 0, is not (R74). -/
  | reservedField (op a b : Byte)
deriving DecidableEq, Repr

/-- What a transaction decodes to: one of the seven operations, or Illegal (R79). -/
inductive Decoded where
  | instr (i : Instr)
  | illegal (why : Illegal)
deriving DecidableEq, Repr

/-- The operation when the reserved fields are 0, Illegal when one is not (R74). -/
def legalWhen (zero : Bool) (i : Instr) (t : Transaction) : Decoded :=
  if zero then .instr i else .illegal (.reservedField t.op t.a t.b)

/-- Decoding checks OP first, then the reserved fields, and reads nothing else (R79). -/
def decode (t : Transaction) : Decoded :=
  if t.op = 0x01#8 then legalWhen (t.a = 0#8 && t.b = 0#8) .reset t
  else if t.op = 0x02#8 then legalWhen (t.a = 0#8 && t.b = 0#8) .status t
  else if t.op = 0x10#8 then legalWhen (t.a = 0#8) (.csumGen t.data) t
  else if t.op = 0x11#8 then legalWhen (t.a = 0#8) (.csumCheck t.data) t
  else if t.op = 0x20#8 then .instr (.encode t.a t.data)
  else if t.op = 0x30#8 then legalWhen (t.b = 0#8) (.feed t.a) t
  else if t.op = 0x31#8 then legalWhen (t.a = 0#8) (.feedn t.data) t
  else .illegal (.reservedOp t.op)

/-! ### Encoding (R71, R72) -/

/-- The transaction of an operation whose data length is n = B. -/
def Instr.transaction : Instr → Transaction
  | .reset => ⟨0x01#8, 0#8, 0#8, []⟩
  | .status => ⟨0x02#8, 0#8, 0#8, []⟩
  | .csumGen data => ⟨0x10#8, 0#8, BitVec.ofNat 8 data.length, data⟩
  | .csumCheck data => ⟨0x11#8, 0#8, BitVec.ofNat 8 data.length, data⟩
  | .encode cmd payload => ⟨0x20#8, cmd, BitVec.ofNat 8 payload.length, payload⟩
  | .feed b => ⟨0x30#8, b, 0#8, []⟩
  | .feedn data => ⟨0x31#8, 0#8, BitVec.ofNat 8 data.length, data⟩

/-- The bytes that request a well-formed operation. -/
def encode (i : Instr) : List Byte := i.transaction.bytes

/-! ### The opcode table as the spec lists it -/

/-- The header as the 24-bit value H = OP·2^16 + A·2^8 + B (R70). -/
def Transaction.header (t : Transaction) : BitVec 24 :=
  BitVec.ofNat 24 (t.op.toNat * 2 ^ 16 + t.a.toNat * 2 ^ 8 + t.b.toNat)

/-- A row of the opcode table: a header belongs to it when the bits under `mask` are those of `pattern`. -/
structure OpcodeRow where
  mnemonic : String
  pattern : BitVec 24
  mask : BitVec 24
deriving DecidableEq, Repr

/-- spec/opcode_table.json, row by row. -/
def opcodeTable : List OpcodeRow :=
  [⟨"RESET", 0x010000#24, 0xFFFFFF#24⟩,
   ⟨"STATUS", 0x020000#24, 0xFFFFFF#24⟩,
   ⟨"CSUM_GEN", 0x100000#24, 0xFFFF00#24⟩,
   ⟨"CSUM_CHECK", 0x110000#24, 0xFFFF00#24⟩,
   ⟨"ENCODE", 0x200000#24, 0xFF0000#24⟩,
   ⟨"FEED", 0x300000#24, 0xFF00FF#24⟩,
   ⟨"FEEDN", 0x310000#24, 0xFFFF00#24⟩]

/-- The row's pattern matches the header. -/
def OpcodeRow.accepts (r : OpcodeRow) (h : BitVec 24) : Bool := h &&& r.mask == r.pattern

/-- The name that the opcode table gives an operation. -/
def Instr.mnemonic : Instr → String
  | .reset => "RESET"
  | .status => "STATUS"
  | .csumGen _ => "CSUM_GEN"
  | .csumCheck _ => "CSUM_CHECK"
  | .encode _ _ => "ENCODE"
  | .feed _ => "FEED"
  | .feedn _ => "FEEDN"

/-! ### Words numbered as the opcode table numbers them -/

/-- The port bytes of the instruction whose table word is `w`: the 24-bit header H is the first word, its OP byte (bits
23..16) first on the port; data byte k is bits 24 + 8k and up, and every bit from `nbits` on is 0 (log entry 8). -/
def tableBytes (nbits w : Nat) : List Byte :=
  let v := w % 2 ^ nbits
  [BitVec.ofNat 8 (v >>> 16), BitVec.ofNat 8 (v >>> 8), BitVec.ofNat 8 v] ++
    (List.range (v % 256)).map fun k => BitVec.ofNat 8 (v >>> (24 + 8 * k))

/-- The operation that the decoder reads from a table word; `none` where it refuses. -/
def decodeTableWord (nbits w : Nat) : Option Instr :=
  match takeTransaction (tableBytes nbits w) with
  | none => none
  | some (t, _) =>
    match decode t with
    | .instr i => some i
    | .illegal _ => none

end Sys2Proof
end

