-- ==== Sys2Proof/Machine/Port.lean ====
section
/-! DEFINITION. The command port and the response port: what the agents and the consumer do to the machine from outside
(20_memory.md R48, R53; 70_reset_and_hazards.md R230), how the port takes the next operation, and how a full response port
holds it. -/

namespace Sys2Proof.Machine

/-! ### What the outside does -/

/-- The bytes an agent has submitted and the port has not accepted. -/
def State.queue (a : Agent) (s : State) : List Byte :=
  match a with
  | .host => s.hostQ
  | .transport => s.transportQ

/-- The machine with other submitted bytes of one agent. -/
def State.setQueue (a : Agent) (q : List Byte) (s : State) : State :=
  match a with
  | .host => { s with hostQ := q }
  | .transport => { s with transportQ := q }

/-- An agent submits bytes of transactions; they stand behind its earlier ones, in its own order (R48). -/
def State.submit (a : Agent) (bs : List Byte) (s : State) : State := s.setQueue a (s.queue a ++ bs)

/-- The serialization of the two agents goes on with an operation of this agent (R48). -/
def State.grant (a : Agent) (s : State) : State := { s with grants := s.grants ++ [a] }

/-- The consumer reads the oldest response off the response port (R53, R75). -/
def State.consume (s : State) : Option (Response × State) :=
  match s.responses with
  | [] => none
  | r :: rest => some (r, { s with responses := rest })

/-- A reset input, if an implementation has one, has the effect of RESET on the codec (R230; log entry 15). -/
def State.resetInput (s : State) : State := s.withCodec s.st.reset

/-! ### Accepting an operation -/

/-- The next operation in the port's order, decoded, and the machine with its transaction consumed, whatever it decodes to
(R70, R73, R74). `none` while no operation is granted, or the granted agent's transaction has not fully arrived. -/
def fetch (s : State) : Option (Decoded × State) :=
  match s.grants with
  | [] => none
  | a :: rest =>
    match takeTransaction (s.queue a) with
    | none => none
    | some (t, q) => some (decode t, { s.setQueue a q with grants := rest })

/-- An illegal transaction answers ILLEGAL_OP and changes no codec state (R73, R74, R201). -/
def raiseIllegal (_why : Illegal) (s : State) : State := s.raise .illegalOp

/-- How many response bytes the response port holds (R9). -/
def State.pendingBytes (s : State) : Nat := (s.responses.map fun r => r.bytes.length).sum

/-- The response port can hold what is in it (R9, R53). -/
def State.fits (s : State) : Bool :=
  match s.cfg.outDepth with
  | none => true
  | some depth => s.pendingBytes ≤ depth

/-- Backpressure: an operation whose response would not fit is held, and the machine stays as it was before the port accepted
the operation; otherwise the operation's outcome stands (R53; log entry 5). -/
def hold (before : State) (o : Host.Outcome State Fault Refusal) : Host.Outcome State Fault Refusal :=
  match o with
  | .next after => if after.fits then .next after else .next before
  | .fault r => .fault r
  | .refused r => .refused r

end Sys2Proof.Machine
end

