-- ==== Sys2Proof/Machine/Step.lean ====
section
/-! DEFINITION. One step: the port accepts the next operation, which runs and answers; nothing happens while there is none
(00_scope.md R6, 20_memory.md R46, R48; log entries 1 and 6). -/

namespace Sys2Proof.Machine

/-- One atomic operation of the command port (R6, R46). While no complete operation is granted the machine waits as it is. -/
def step (s : State) : Host.Outcome State Fault Refusal :=
  match fetch s with
  | none => .next s
  | some (.instr i, s') => hold s (exec i s')
  | some (.illegal why, s') => hold s (.next (raiseIllegal why s'))

/-- The machine whose next accepted operation is the host agent's transaction with table word `w`: its bytes stand first in
the host agent's queue and the next grant is the host agent's. It stands for the submission of a program from outside
(log entries 2 and 8). -/
def State.withFetchWord (s : State) (nbits w : Nat) : State :=
  { s with hostQ := tableBytes nbits w ++ s.hostQ, grants := .host :: s.grants }

end Sys2Proof.Machine
end

