-- ==== Sys2Proof/Machine/Assembler.lean ====
section
/-! DEFINITION. The text form of programs (30_encoding.md R77) and the pseudo-instructions (R78), read into operations.
One operation per line; a byte is 0xNN, or two bare hex digits inside a list; a list may be repeated; a line may end with a
comment (log entry 16). -/

namespace Sys2Proof.Machine

/-! ### Pseudo-instructions (R78) -/

/-- FEEDS [s]: ⌊len(s)/255⌋ FEEDN operations of 255 consecutive bytes, then one of the remaining bytes if there are any. -/
def feeds (s : List Byte) : List Instr :=
  (List.range (s.length / 255)).map (fun k => Instr.feedn ((s.drop (255 * k)).take 255)) ++
    (if s.length % 255 = 0 then [] else [Instr.feedn (s.drop (255 * (s.length / 255)))])

/-- ZFLUSH: FEEDN [00]*255, then FEED 0x00. -/
def zflush : List Instr := [.feedn (List.replicate 255 0x00#8), .feed 0x00#8]

/-! ### Tokens -/

/-- The tokens of a line. -/
inductive Token where
  | word (cs : List Char)
  | comma
  | lbrack
  | rbrack
  | star
deriving DecidableEq, Repr

/-- The word read so far, as a token in front of the rest. -/
def flushWord (acc : List Char) (ts : List Token) : List Token :=
  if acc = [] then ts else .word acc.reverse :: ts

/-- The token of a punctuation character. -/
def punctuation (c : Char) : Option Token :=
  if c = ',' then some .comma
  else if c = '[' then some .lbrack
  else if c = ']' then some .rbrack
  else if c = '*' then some .star
  else none

/-- The tokens of a line; `;` begins a comment that runs to its end. `acc` is the word in progress, last letter first. -/
def lexLine (acc : List Char) : List Char → List Token
  | [] => flushWord acc []
  | c :: cs =>
    if c = ';' then flushWord acc []
    else if c = ' ' ∨ c = '\t' ∨ c = '\r' then flushWord acc (lexLine [] cs)
    else
      match punctuation c with
      | some t => flushWord acc (t :: lexLine [] cs)
      | none => lexLine (c :: acc) cs

/-! ### Bytes and lists -/

/-- The value of a hex digit. -/
def hexDigit (c : Char) : Option Nat :=
  if '0'.toNat ≤ c.toNat ∧ c.toNat ≤ '9'.toNat then some (c.toNat - '0'.toNat)
  else if 'A'.toNat ≤ c.toNat ∧ c.toNat ≤ 'F'.toNat then some (c.toNat - 'A'.toNat + 10)
  else if 'a'.toNat ≤ c.toNat ∧ c.toNat ≤ 'f'.toNat then some (c.toNat - 'a'.toNat + 10)
  else none

/-- Two hex digits. -/
def hexPair (hi lo : Char) : Option Byte :=
  match hexDigit hi, hexDigit lo with
  | some h, some l => some (BitVec.ofNat 8 (16 * h + l))
  | _, _ => none

/-- A byte written 0xNN. -/
def prefixedByte : List Char → Option Byte
  | ['0', 'x', hi, lo] => hexPair hi lo
  | _ => none

/-- A byte inside a list: 0xNN, or two bare hex digits. -/
def listByte : List Char → Option Byte
  | [hi, lo] => hexPair hi lo
  | w => prefixedByte w

/-- A decimal number, digit by digit. -/
def decimal (acc : Nat) : List Char → Option Nat
  | [] => some acc
  | c :: cs =>
    if '0'.toNat ≤ c.toNat ∧ c.toNat ≤ '9'.toNat then decimal (10 * acc + (c.toNat - '0'.toNat)) cs else none

/-- A list's bytes up to its closing bracket, and the tokens after it. A comma may separate two bytes. -/
def listItems : List Token → Option (List Byte × List Token)
  | .rbrack :: ts => some ([], ts)
  | .word w :: .comma :: .word w' :: ts =>
    match listByte w, listItems (.word w' :: ts) with
    | some b, some (bs, rest) => some (b :: bs, rest)
    | _, _ => none
  | .word w :: ts =>
    match listByte w, listItems ts with
    | some b, some (bs, rest) => some (b :: bs, rest)
    | _, _ => none
  | _ => none

/-- A list written literally has at most 255 bytes; `*` and a number repeat it (R77). -/
def listOperand : List Token → Option (List Byte)
  | .lbrack :: ts =>
    match listItems ts with
    | some (bs, []) => if bs.length ≤ 255 then some bs else none
    | some (bs, [.star, .word n]) =>
      match decimal 0 n with
      | some k => if bs.length ≤ 255 then some (List.replicate k bs).flatten else none
      | none => none
    | _ => none
  | _ => none

/-! ### Lines and programs -/

/-- The operation, where its data length fits a transaction. -/
def carried (i : Instr) : Option (List Instr) := if i.WellFormed then some [i] else none

/-- The operations that one line stands for (R77, R78); a line of a comment alone stands for none. -/
def assembleTokens : List Token → Option (List Instr)
  | [] => some []
  | .word mnemonic :: operands =>
    if mnemonic = "RESET".toList then (if operands = [] then some [.reset] else none)
    else if mnemonic = "STATUS".toList then (if operands = [] then some [.status] else none)
    else if mnemonic = "ZFLUSH".toList then (if operands = [] then some zflush else none)
    else if mnemonic = "CSUM_GEN".toList then
      (listOperand operands).bind fun data => carried (.csumGen data)
    else if mnemonic = "CSUM_CHECK".toList then
      (listOperand operands).bind fun data => carried (.csumCheck data)
    else if mnemonic = "FEEDN".toList then
      (listOperand operands).bind fun data => carried (.feedn data)
    else if mnemonic = "FEEDS".toList then (listOperand operands).map feeds
    else if mnemonic = "FEED".toList then
      match operands with
      | [.word w] => (prefixedByte w).map fun b => [.feed b]
      | _ => none
    else if mnemonic = "ENCODE".toList then
      match operands with
      | .word w :: .comma :: ts =>
        (prefixedByte w).bind fun cmd => (listOperand ts).bind fun payload => carried (.encode cmd payload)
      | _ => none
    else none
  | _ => none

/-- One line of a program. -/
def assembleLine (cs : List Char) : Option (List Instr) := assembleTokens (lexLine [] cs)

/-- The lines of a text. -/
def splitLines (acc : List Char) : List Char → List (List Char)
  | [] => [acc.reverse]
  | c :: cs => if c = '\n' then acc.reverse :: splitLines [] cs else splitLines (c :: acc) cs

/-- The operations of several lines, in order; `none` where a line is not of the syntax. -/
def assembleLines : List (List Char) → Option (List Instr)
  | [] => some []
  | l :: ls =>
    match assembleLine l, assembleLines ls with
    | some is, some rest => some (is ++ rest)
    | _, _ => none

/-- A program text as operations (R77). -/
def assemble (src : String) : Option (List Instr) := assembleLines (splitLines [] src.toList)

end Sys2Proof.Machine
end

