-- ==== Sys2Proof/Safety.lean ====
section
/-! DEFINITION. The terms claims are stated in: the rest invariant (42_decoder.md R147), runs of operations, the bytes an
operation delivers and the frames it answers, and the scan of a stream as the spec's rules R142 to R145 give it, as a
relation of its own. -/

namespace Sys2Proof

/-! ### What an operation delivers -/

/-- The two receive operations (R48). -/
def Instr.isReceive : Instr → Bool
  | .feed _ => true
  | .feedn _ => true
  | _ => false

/-- The stream bytes an operation delivers, in arrival order (R42, R141, R149). -/
def Instr.delivers : Instr → List Byte
  | .feed b => [b]
  | .feedn data => data
  | _ => []

/-- The stream that a run of operations delivers. -/
def stream (ops : List Instr) : List Byte := ops.flatMap Instr.delivers

end Sys2Proof

namespace Sys2Proof.Machine

/-! ### The rest invariant -/

/-- The two shapes of the buffer between operations: empty, or a head L ≥ 1 with len(buf) ≤ L + 1 (R147). -/
def restShape : List Byte → Bool
  | [] => true
  | head :: rest => head ≠ 0#8 && rest.length ≤ head.toNat

/-- The invariant of the machine: once a RESET has been applied, the buffer is at rest between operations. Before any RESET
its contents are unspecified (R30) and nothing is claimed of them. -/
abbrev State.Inv (s : State) : Prop := s.st.init = true → restShape s.st.buf = true

/-! ### Runs of operations -/

/-- The operations in step order, each an atomic step (R46, R48). -/
def runOps : List Instr → State → Host.Outcome State Fault Refusal
  | [], s => .next s
  | i :: is, s =>
    match exec i s with
    | .next s' => runOps is s'
    | .fault r => .fault r
    | .refused r => .refused r

/-- The windows answered by the receive operations of a run, one after another: the RDATA of each without its count
byte (R76). -/
def answeredWindows : List Instr → List Response → List Byte
  | i :: is, r :: rs => (if i.isReceive then r.rdata.drop 1 else []) ++ answeredWindows is rs
  | _, _ => []

/-! ### The scan of a stream -/

/-- A frame whose bytes are a valid frame (R63): LEN ≥ 1, LEN = payload length + 1, and the sum of all bytes is 0. -/
abbrev Frame.Valid (f : Frame) : Prop :=
  f.len ≠ 0#8 ∧ f.len.toNat = f.payload.length + 1 ∧ sumBytes f.raw % 256 = 0

/-- What happens to a head (R205): it is discarded, or its window is accepted. -/
inductive ScanEvent where
  | discard (head : Byte)
  | accept (f : Frame)
deriving DecidableEq, Repr

/-- The stream bytes that an event takes off the head of the buffer (R143, R144). -/
def ScanEvent.bytes : ScanEvent → List Byte
  | .discard head => [head]
  | .accept f => f.raw

/-- The stream positions that the events take, in number. -/
def width (evs : List ScanEvent) : Nat := (evs.flatMap ScanEvent.bytes).length

/-- The frames accepted, in scan order (R148). -/
def accepted (evs : List ScanEvent) : List Frame :=
  evs.filterMap fun e => match e with
    | .discard _ => none
    | .accept f => some f

/-- How many heads were discarded (R157's D). -/
def discards (evs : List ScanEvent) : Nat :=
  (evs.filter fun e => match e with
    | .discard _ => true
    | .accept _ => false).length

/-- `Scans stream events rest`: scanning the stream from its first byte gives these events and leaves `rest`, by the cases of
R142: nothing more is decided at rest (a, c); a zero head is discarded (b); a head whose window is complete and a valid frame
is accepted whole (d); a head whose complete window fails the sum is discarded (e). -/
inductive Scans : List Byte → List ScanEvent → List Byte → Prop where
  | rest {buf : List Byte} (h : restShape buf = true) : Scans buf [] buf
  | zero {buf rest : List Byte} {evs : List ScanEvent} (h : Scans buf evs rest) :
      Scans (0#8 :: buf) (.discard 0#8 :: evs) rest
  | accept {buf rest : List Byte} {evs : List ScanEvent} {f : Frame} (valid : f.Valid) (h : Scans buf evs rest) :
      Scans (f.raw ++ buf) (.accept f :: evs) rest
  | mismatch {head : Byte} {buf rest : List Byte} {evs : List ScanEvent} (nonzero : head ≠ 0#8)
      (complete : head.toNat < buf.length)
      (invalid : sumBytes ((head :: buf).take (head.toNat + 2)) % 256 ≠ 0) (h : Scans buf evs rest) :
      Scans (head :: buf) (.discard head :: evs) rest

end Sys2Proof.Machine
end

