-- ==== Sys2Proof/Certificates/Slice0/Obligations.lean ====
section
/-! DEFINITION. The statements for the provers, by the numbered rules of the spec. Every response is written out as the record
(status, RDATA) that the operation appends to the response port; an equation with a whole next state says that nothing else
changes. -/

open Sys2Proof Sys2Proof.Machine

/-! ### Framing, decoding, encoding -/

/-- R70: a transaction is OP, A, B and exactly B data bytes, framed by B alone whatever OP holds, and its header is
H = OP·2^16 + A·2^8 + B. -/
def Obligations.TransactionsAreFramedByTheirLengthByte : Prop :=
  (∀ (op a b : Byte) (data rest : List Byte), data.length = b.toNat →
    takeTransaction (op :: a :: b :: (data ++ rest)) = some (⟨op, a, b, data⟩, rest)) ∧
  (∀ (op a b : Byte) (data : List Byte), data.length < b.toNat → takeTransaction (op :: a :: b :: data) = none) ∧
  (∀ bs : List Byte, bs.length < 3 → takeTransaction bs = none) ∧
  (∀ t : Transaction, t.header.toNat = t.op.toNat * 2 ^ 16 + t.a.toNat * 2 ^ 8 + t.b.toNat)

/-- Every well-formed operation's bytes are framed and decoded as that operation, with every operand, whatever follows. -/
def Obligations.DecodingAnEncodingGivesTheOperation : Prop :=
  ∀ (i : Instr) (rest : List Byte), i.WellFormed →
    ∃ t, takeTransaction (encode i ++ rest) = some (t, rest) ∧ decode t = .instr i

/-- Bytes that decode to an operation are exactly the encoding of that operation, which is well-formed: each operation has one
spelling. -/
def Obligations.EncodingADecodingGivesTheBytes : Prop :=
  ∀ (bs rest : List Byte) (t : Transaction) (i : Instr), takeTransaction bs = some (t, rest) → decode t = .instr i →
    i.WellFormed ∧ encode i ++ rest = bs

/-- R72, R73, R74: a transaction is illegal exactly when OP is reserved, or a must-be-0 field is not 0. -/
def Obligations.IllegalExactlyForReservedOpcodesAndFields : Prop :=
  ∀ t : Transaction, (∃ why, decode t = .illegal why) ↔
    (t.op ∉ [0x01#8, 0x02#8, 0x10#8, 0x11#8, 0x20#8, 0x30#8, 0x31#8] ∨
     (t.op ∈ [0x01#8, 0x02#8] ∧ (t.a ≠ 0#8 ∨ t.b ≠ 0#8)) ∨
     (t.op ∈ [0x10#8, 0x11#8, 0x31#8] ∧ t.a ≠ 0#8) ∨
     (t.op = 0x30#8 ∧ t.b ≠ 0#8))

/-- Decoding agrees with the opcode table: a header is legal exactly when a row accepts it, and the row that accepts it is the
one with the operation's mnemonic. -/
def Obligations.DecodingAgreesWithTheOpcodeTable : Prop :=
  (∀ t : Transaction, (∃ i, decode t = .instr i) ↔ ∃ r ∈ opcodeTable, r.accepts t.header = true) ∧
  (∀ (t : Transaction) (i : Instr), decode t = .instr i →
    ∀ r ∈ opcodeTable, (r.accepts t.header = true ↔ r.mnemonic = i.mnemonic))

/-- Port bytes written out from R70 and R71, one word for each row of the opcode table. -/
def Obligations.SpecWordsDecodeToTheirOperations : Prop :=
  decodeTableWord 24 0x010000 = some .reset ∧
  decodeTableWord 24 0x020000 = some .status ∧
  decodeTableWord 24 0x100002 = some (.csumGen [0x00#8, 0x00#8]) ∧
  decodeTableWord 40 0xA653110002 = some (.csumCheck [0x53#8, 0xA6#8]) ∧
  decodeTableWord 24 0x204100 = some (.encode 0x41#8 []) ∧
  decodeTableWord 24 0x30A600 = some (.feed 0xA6#8) ∧
  decodeTableWord 32 0xA6310001 = some (.feedn [0xA6#8]) ∧
  decodeTableWord 24 0x000000 = none ∧
  decodeTableWord 24 0x304101 = none

/-! ### The step and the ports -/

/-- When the granted agent's next bytes encode a well-formed operation, the step is the operation's meaning on the machine with
those bytes and that grant consumed, up to the hold of a full response port; with an unbounded port it is the meaning. -/
def Obligations.StepRunsTheAcceptedOperation : Prop :=
  ∀ (s : State) (a : Agent) (g : List Agent) (i : Instr) (rest : List Byte),
    s.grants = a :: g → s.queue a = encode i ++ rest → i.WellFormed →
    step s = hold s (exec i { s.setQueue a rest with grants := g }) ∧
    (s.cfg.outDepth = none → step s = exec i { s.setQueue a rest with grants := g })

/-- R73, R74: a transaction with a reserved OP, or a non-zero must-be-0 field, answers ILLEGAL_OP and changes no codec state;
its data bytes are consumed. -/
def Obligations.IllegalTransactionsAnswerIllegalOp : Prop :=
  ∀ (s : State) (a : Agent) (g : List Agent) (t : Transaction) (rest : List Byte),
    s.grants = a :: g → t.data.length = t.b.toNat → s.queue a = [t.op, t.a, t.b] ++ t.data ++ rest →
    s.cfg.outDepth = none →
    (t.op ∉ [0x01#8, 0x02#8, 0x10#8, 0x11#8, 0x20#8, 0x30#8, 0x31#8] ∨
     (t.op ∈ [0x01#8, 0x02#8] ∧ (t.a ≠ 0#8 ∨ t.b ≠ 0#8)) ∨
     (t.op ∈ [0x10#8, 0x11#8, 0x31#8] ∧ t.a ≠ 0#8) ∨
     (t.op = 0x30#8 ∧ t.b ≠ 0#8)) →
    step s = .next { s.setQueue a rest with grants := g, responses := s.responses ++ [⟨.illegalOp, []⟩] }

/-- The model's choice of log entry 6: while no operation is granted, or the granted agent's transaction has not fully arrived,
the machine waits as it is. -/
def Obligations.StepWaitsForACompleteTransaction : Prop :=
  (∀ s : State, s.grants = [] → step s = .next s) ∧
  (∀ (s : State) (a : Agent) (g : List Agent), s.grants = a :: g →
    ((s.queue a).length < 3 ∨
      ∃ op a' b data, s.queue a = op :: a' :: b :: data ∧ data.length < b.toNat) →
    step s = .next s)

/-- R53 by the model's reading of log entry 5: with a response port of `d` bytes an operation whose response does not fit is
held, and the machine stays as it was; an operation whose response fits has its effect. -/
def Obligations.FullResponsePortHoldsTheOperation : Prop :=
  ∀ (s after : State) (a : Agent) (g : List Agent) (i : Instr) (rest : List Byte) (d : Nat),
    s.grants = a :: g → s.queue a = encode i ++ rest → i.WellFormed → s.cfg.outDepth = some d →
    exec i { s.setQueue a rest with grants := g } = .next after →
    (d < (after.responses.map fun r => r.rdata.length + 1).sum → step s = .next s) ∧
    ((after.responses.map fun r => r.rdata.length + 1).sum ≤ d → step s = .next after)

/-- R48, R75: a step takes transactions only off the front of the granted agent's queue, in the order of the grants; it drops no
response and adds at most one, behind the earlier ones; and it never changes the parameters. -/
def Obligations.StepKeepsSubmissionAndResponseOrder : Prop :=
  ∀ s s' : State, step s = .next s' →
    (∀ a, s'.queue a <:+ s.queue a) ∧
    (∀ a g, s.grants = a :: g → ∀ a', a' ≠ a → s'.queue a' = s.queue a') ∧
    s'.grants <:+ s.grants ∧
    (s'.responses = s.responses ∨ ∃ r, s'.responses = s.responses ++ [r]) ∧
    s'.cfg = s.cfg

/-- R48, R53, R230: submitting appends to that agent's bytes, granting appends to the order, reading takes the oldest response,
and none of them touches the codec; a reset input leaves the codec as RESET does and touches nothing else. -/
def Obligations.OutsideActionsTouchOnlyTheirPort : Prop :=
  (∀ (s : State) (a : Agent) (bs : List Byte),
    (s.submit a bs).queue a = s.queue a ++ bs ∧ (∀ a', a' ≠ a → (s.submit a bs).queue a' = s.queue a') ∧
    (s.submit a bs).st = s.st ∧ (s.submit a bs).grants = s.grants ∧ (s.submit a bs).responses = s.responses ∧
    (s.submit a bs).cfg = s.cfg) ∧
  (∀ (s : State) (a : Agent), s.grant a = { s with grants := s.grants ++ [a] }) ∧
  (∀ s : State, s.responses = [] → s.consume = none) ∧
  (∀ (s : State) (r : Response) (rs : List Response), s.responses = r :: rs →
    s.consume = some (r, { s with responses := rs })) ∧
  (∀ s : State, s.resetInput = { s with st := ⟨true, [], 0#32⟩ })

/-! ### Reset and the rest invariant -/

/-- R31: after RESET init is true, the buffer is empty and the counter is 0; the machine's reset state has these values and
meets the invariant. -/
def Obligations.ResetStateHasTheResetValues : Prop :=
  State.reset.st = ⟨true, [], 0#32⟩ ∧ State.reset.Inv

/-- R147: every step, from every state, keeps the rest invariant: once a RESET has been applied, the buffer is empty or holds
a head L ≥ 1 and at most L + 1 bytes. -/
def Obligations.StepKeepsTheRestInvariant : Prop :=
  ∀ s s' : State, s.Inv → step s = .next s' → s'.Inv

/-- R147, R181: a buffer at rest holds at most 256 bytes, and 256 only behind a head of 0xFF. -/
def Obligations.RestBoundsTheBuffer : Prop :=
  ∀ buf : List Byte, restShape buf = true → buf.length ≤ 256 ∧ (buf.length = 256 → buf.head? = some 0xFF#8)

/-- R140: the control state is the spec's table of conditions on the buffer; at rest it is EMPTY or COLLECT. -/
def Obligations.ControlStateIsATableOnTheBuffer : Prop :=
  (∀ c : Codec, controlState c = .empty ↔ c.buf.length = 0) ∧
  (∀ (c : Codec) (L k : Nat), controlState c = .collect L k ↔
    ∃ head rest, c.buf = head :: rest ∧ L = head.toNat ∧ 1 ≤ L ∧ k = c.buf.length ∧ k ≤ L + 1) ∧
  (∀ c : Codec, controlState c = .zero ↔ c.buf.head? = some 0#8) ∧
  (∀ (c : Codec) (L : Nat), controlState c = .eval L ↔
    ∃ head rest, c.buf = head :: rest ∧ L = head.toNat ∧ 1 ≤ L ∧ L + 2 ≤ c.buf.length) ∧
  (∀ c : Codec, restShape c.buf = true → controlState c = .empty ∨ ∃ L k, controlState c = .collect L k)

/-- R180, R31: RESET answers OK without data and leaves exactly the reset values, from every state; A and B must be 0. -/
def Obligations.ResetGivesTheResetValues : Prop :=
  (∀ s : State, exec .reset s =
    .next { s with st := ⟨true, [], 0#32⟩, responses := s.responses ++ [⟨.ok, []⟩] }) ∧
  (∀ data : List Byte, decode ⟨0x01#8, 0#8, 0#8, data⟩ = .instr .reset) ∧
  (∀ (a b : Byte) (data : List Byte), a ≠ 0#8 ∨ b ≠ 0#8 →
    decode ⟨0x01#8, a, b, data⟩ = .illegal (.reservedField 0x01#8 a b))

/-- R51, R233: after a RESET nothing of the earlier stream shows: two machines with the same parameters, whatever else they
hold, give the same codec state and the same new responses for every run that begins with RESET. -/
def Obligations.ResetForgetsTheStream : Prop :=
  ∀ (s₁ s₂ : State) (ops : List Instr), s₁.cfg = s₂.cfg →
    ∃ t₁ t₂ rs, runOps (.reset :: ops) s₁ = .next t₁ ∧ runOps (.reset :: ops) s₂ = .next t₂ ∧ t₁.st = t₂.st ∧
      t₁.responses = s₁.responses ++ rs ∧ t₂.responses = s₂.responses ++ rs

/-- R21, R201: while init is false every operation except RESET answers NOT_INIT, also where INVALID_ARGUMENT would apply
(R204), and nothing else changes; and init is true after an operation exactly when it was true before or the operation is
RESET. -/
def Obligations.NothingButResetRunsBeforeReset : Prop :=
  (∀ (i : Instr) (s : State), s.st.init = false → i ≠ .reset →
    exec i s = .next { s with responses := s.responses ++ [⟨.notInit, []⟩] }) ∧
  (∀ (i : Instr) (s t : State), exec i s = .next t → (t.st.init = true ↔ s.st.init = true ∨ i = .reset))

/-! ### What every operation does -/

/-- R75, R201: every operation goes on to a next state with exactly one more response; an error has no data and changes no
codec state; the ports and the parameters are not the operation's to change; no operation that was decoded answers
ILLEGAL_OP. -/
def Obligations.EveryOperationAnswersOnce : Prop :=
  ∀ (i : Instr) (s : State), ∃ (st : Codec) (r : Response),
    exec i s = .next { s with st := st, responses := s.responses ++ [r] } ∧
    (r.status ≠ .ok → r.rdata = [] ∧ st = s.st) ∧ r.status ≠ .illegalOp ∧
    (r.status = .invalidArgument → ∃ cmd p, i = .encode cmd p ∧ s.cfg.maxPayload.val < p.length)

/-- R55, R49: STATUS, CSUM_GEN, CSUM_CHECK and ENCODE write nothing but their response, in every state; the response of the
last three depends only on init and the parameters. -/
def Obligations.ReadingOperationsWriteNothing : Prop :=
  (∀ (i : Instr) (s : State), i.isReceive = false → i ≠ .reset →
    ∃ r, exec i s = .next { s with responses := s.responses ++ [r] }) ∧
  (∀ (i : Instr) (s s' : State), i.isReceive = false → i ≠ .reset → i ≠ .status →
    s.st.init = s'.st.init → s.cfg = s'.cfg →
    ∃ r, exec i s = .next { s with responses := s.responses ++ [r] } ∧
      exec i s' = .next { s' with responses := s'.responses ++ [r] })

/-- R55: FEED and FEEDN change only the buffer, the counter and the response port, in every state, and their response and
their effect on the codec depend only on the codec. -/
def Obligations.ReceivingWritesOnlyBufferAndCounter : Prop :=
  ∀ (i : Instr) (s s' : State), i.isReceive = true → s.st = s'.st →
    ∃ buf malf r,
      exec i s = .next { s with st := { s.st with buf := buf, malf := malf }, responses := s.responses ++ [r] } ∧
      exec i s' = .next { s' with st := { s'.st with buf := buf, malf := malf }, responses := s'.responses ++ [r] }

/-- R49: a receive operation and a transmit operation give the same responses and the same codec state in either order. -/
def Obligations.TransmitAndReceiveCommute : Prop :=
  ∀ (tx rx : Instr) (s : State), tx.isReceive = false → tx ≠ .reset → tx ≠ .status → rx.isReceive = true →
    ∃ st r₁ r₂, runOps [tx, rx] s = .next { s with st := st, responses := s.responses ++ [r₁, r₂] } ∧
      runOps [rx, tx] s = .next { s with st := st, responses := s.responses ++ [r₂, r₁] }

/-- R201: the four codes, and no status for any other code. -/
def Obligations.StatusCodesAreFour : Prop :=
  Status.ok.code = 0x00#8 ∧ Status.illegalOp.code = 0x01#8 ∧ Status.invalidArgument.code = 0x02#8 ∧
  Status.notInit.code = 0x03#8 ∧
  (∀ (c : Byte) (e : Status), statusOfCode c = some e ↔ e.code = c) ∧
  (∀ c : Byte, 4 ≤ c.toNat → statusOfCode c = none) ∧
  (∀ r : Response, r.bytes = r.status.code :: r.rdata)

/-- R181, R27: STATUS answers INIT and STALL in byte 0, LEVEL in bytes 1 and 2 and MALF in bytes 3 to 6, the least significant
byte first and every reserved bit 0; LEVEL is 256 only behind a head of 0xFF; it writes nothing; A and B must be 0. -/
def Obligations.StatusAnswersTheStatusRecord : Prop :=
  (∀ s : State, s.st.init = true → s.Inv →
    exec .status s = .next { s with responses := s.responses ++ [⟨.ok,
      [BitVec.ofNat 8 (if s.st.buf.length = 0 then 1 else 3),
       BitVec.ofNat 8 (s.st.buf.length % 256),
       BitVec.ofNat 8 (s.st.buf.length / 256),
       BitVec.ofNat 8 (s.st.malf.toNat % 256),
       BitVec.ofNat 8 (s.st.malf.toNat / 2 ^ 8 % 256),
       BitVec.ofNat 8 (s.st.malf.toNat / 2 ^ 16 % 256),
       BitVec.ofNat 8 (s.st.malf.toNat / 2 ^ 24)]⟩] }) ∧
  (∀ s : State, s.st.init = true → s.Inv → s.st.buf.length = 256 → s.st.buf.head? = some 0xFF#8) ∧
  (∀ s : State, s.st.init = false →
    exec .status s = .next { s with responses := s.responses ++ [⟨.notInit, []⟩] }) ∧
  (∀ data : List Byte, decode ⟨0x02#8, 0#8, 0#8, data⟩ = .instr .status) ∧
  (∀ (a b : Byte) (data : List Byte), a ≠ 0#8 ∨ b ≠ 0#8 →
    decode ⟨0x02#8, a, b, data⟩ = .illegal (.reservedField 0x02#8 a b))

/-! ### The checksum -/

/-- R103: CSUM_GEN answers (256 − Σ DATA mod 256) mod 256 and writes nothing; A must be 0. -/
def Obligations.CsumGenAnswersTheChecksum : Prop :=
  (∀ (s : State) (data : List Byte), s.st.init = true →
    exec (.csumGen data) s = .next { s with responses := s.responses ++
      [⟨.ok, [BitVec.ofNat 8 ((256 - (data.map BitVec.toNat).sum % 256) % 256)]⟩] }) ∧
  (∀ (s : State) (data : List Byte), s.st.init = false →
    exec (.csumGen data) s = .next { s with responses := s.responses ++ [⟨.notInit, []⟩] }) ∧
  (∀ (b : Byte) (data : List Byte), decode ⟨0x10#8, 0#8, b, data⟩ = .instr (.csumGen data)) ∧
  (∀ (a b : Byte) (data : List Byte), a ≠ 0#8 →
    decode ⟨0x10#8, a, b, data⟩ = .illegal (.reservedField 0x10#8 a b))

/-- R104: CSUM_CHECK answers 0x01 if Σ DATA mod 256 is 0, else 0x00, and writes nothing; A must be 0; a window longer than 255
bytes can be checked in two parts. -/
def Obligations.CsumCheckAnswersTheSum : Prop :=
  (∀ (s : State) (data : List Byte), s.st.init = true →
    exec (.csumCheck data) s = .next { s with responses := s.responses ++
      [⟨.ok, [if (data.map BitVec.toNat).sum % 256 = 0 then 0x01#8 else 0x00#8]⟩] }) ∧
  (∀ (s : State) (data : List Byte), s.st.init = false →
    exec (.csumCheck data) s = .next { s with responses := s.responses ++ [⟨.notInit, []⟩] }) ∧
  (∀ (b : Byte) (data : List Byte), decode ⟨0x11#8, 0#8, b, data⟩ = .instr (.csumCheck data)) ∧
  (∀ (a b : Byte) (data : List Byte), a ≠ 0#8 →
    decode ⟨0x11#8, a, b, data⟩ = .illegal (.reservedField 0x11#8 a b)) ∧
  (∀ (s : State) (x y : List Byte), s.st.init = true →
    ∃ c : Byte,
      exec (.csumGen x) s = .next { s with responses := s.responses ++ [⟨.ok, [c]⟩] } ∧
      exec (.csumCheck (y ++ [BitVec.ofNat 8 ((256 - c.toNat) % 256)])) s =
        .next { s with responses := s.responses ++
          [⟨.ok, [if ((x ++ y).map BitVec.toNat).sum % 256 = 0 then 0x01#8 else 0x00#8]⟩] })

/-- R105: exactly one trailer byte makes CSUM_CHECK answer 0x01 behind any prefix, the one CSUM_GEN answers for the prefix. -/
def Obligations.ExactlyOneTrailerValidates : Prop :=
  ∀ (s : State) (data : List Byte), s.st.init = true →
    ∃ g : Byte, exec (.csumGen data) s = .next { s with responses := s.responses ++ [⟨.ok, [g]⟩] } ∧
      ∀ c : Byte, exec (.csumCheck (data ++ [c])) s =
        .next { s with responses := s.responses ++ [⟨.ok, [if c = g then 0x01#8 else 0x00#8]⟩] }

/-- R106: a window with one bit of one byte flipped fails CSUM_CHECK when the window passed it. -/
def Obligations.SingleBitFlipsAreDetected : Prop :=
  ∀ (s : State) (w : List Byte) (i k : Nat) (b : Byte), s.st.init = true → k < 8 → w[i]? = some b →
    exec (.csumCheck w) s = .next { s with responses := s.responses ++ [⟨.ok, [0x01#8]⟩] } →
    exec (.csumCheck (w.set i (b ^^^ (1#8 <<< k)))) s =
      .next { s with responses := s.responses ++ [⟨.ok, [0x00#8]⟩] }

/-- R100, R103, R107: the order of the bytes never matters to CSUM_GEN or CSUM_CHECK. -/
def Obligations.ChecksumsIgnoreByteOrder : Prop :=
  ∀ (s : State) (w w' : List Byte), w.Perm w' →
    exec (.csumGen w) s = exec (.csumGen w') s ∧ exec (.csumCheck w) s = exec (.csumCheck w') s

/-! ### The encoder -/

/-- R120: ENCODE answers [n + 1, cmd], the payload and the checksum byte that makes the whole sum 0 mod 256; more than
MAX_PAYLOAD bytes answer INVALID_ARGUMENT without data, and NOT_INIT goes before it; nothing is written; every A and B is
legal. -/
def Obligations.EncodeAnswersTheFrame : Prop :=
  (∀ (s : State) (cmd : Byte) (p : List Byte), s.st.init = true → p.length ≤ s.cfg.maxPayload.val →
    exec (.encode cmd p) s = .next { s with responses := s.responses ++
      [⟨.ok, [BitVec.ofNat 8 (p.length + 1), cmd] ++ p ++
        [BitVec.ofNat 8 ((256 - (p.length + 1 + cmd.toNat + (p.map BitVec.toNat).sum) % 256) % 256)]⟩] }) ∧
  (∀ (s : State) (cmd : Byte) (p : List Byte), s.st.init = true → s.cfg.maxPayload.val < p.length →
    exec (.encode cmd p) s = .next { s with responses := s.responses ++ [⟨.invalidArgument, []⟩] }) ∧
  (∀ (s : State) (cmd : Byte) (p : List Byte), s.st.init = false →
    exec (.encode cmd p) s = .next { s with responses := s.responses ++ [⟨.notInit, []⟩] }) ∧
  (∀ (a b : Byte) (data : List Byte), decode ⟨0x20#8, a, b, data⟩ = .instr (.encode a data))

/-- R122: ENCODE's output is the bytes of a valid frame that carries the command id and the payload, with
1 ≤ LEN ≤ MAX_PAYLOAD + 1; distinct operands give distinct outputs. -/
def Obligations.EncoderOutputsAreValidAndDistinct : Prop :=
  (∀ (s : State) (cmd : Byte) (p : List Byte), s.st.init = true → p.length ≤ s.cfg.maxPayload.val →
    ∃ f : Frame, exec (.encode cmd p) s = .next { s with responses := s.responses ++ [⟨.ok, f.raw⟩] } ∧
      f.Valid ∧ f.cmd = cmd ∧ f.payload = p ∧ parseFrame f.raw = some f ∧
      1 ≤ f.len.toNat ∧ f.len.toNat ≤ s.cfg.maxPayload.val + 1) ∧
  (∀ (s t : State) (cmd cmd' : Byte) (p p' : List Byte), s.st.init = true →
    p.length ≤ s.cfg.maxPayload.val → p'.length ≤ s.cfg.maxPayload.val →
    exec (.encode cmd p) s = .next t → exec (.encode cmd' p') s = .next t → cmd = cmd' ∧ p = p')

/-- R121: the bytes that ENCODE answers, delivered into an empty buffer by any receive operations, come back as exactly one
frame with the same command id and payload, answered by the operation that delivers the last byte; the buffer is empty again
and the counter unchanged. -/
def Obligations.EncodedFramesComeBackFromTheDecoder : Prop :=
  ∀ (s : State) (cmd : Byte) (p : List Byte) (before : List Instr) (last : Instr),
    s.st.init = true → s.st.buf = [] → p.length ≤ s.cfg.maxPayload.val →
    (∀ i ∈ before ++ [last], i.isReceive = true) → last.delivers ≠ [] →
    ∀ bytes, exec (.encode cmd p) s = .next { s with responses := s.responses ++ [⟨.ok, bytes⟩] } →
    stream (before ++ [last]) = bytes →
    runOps (before ++ [last]) s = .next { s with responses := s.responses ++
      (before.map fun _ => ⟨.ok, [0x00#8]⟩) ++ [⟨.ok, 0x01#8 :: bytes⟩] } ∧
    ∃ f, parseFrameList (0x01#8 :: bytes) = some [f] ∧ f.cmd = cmd ∧ f.payload = p

/-! ### The extraction -/

/-- R141 to R145, R149: FEED and FEEDN scan the buffered bytes followed by the delivered ones by the spec's cases, keep what is
left at rest, add one to the counter for each discarded head, and answer the accepted frames as a frame list; before a RESET
they answer NOT_INIT; B must be 0 for FEED and A for FEEDN. -/
def Obligations.ReceivingFollowsTheScanRules : Prop :=
  (∀ (i : Instr) (s : State), i.isReceive = true → s.st.init = true → s.Inv →
    ∃ evs rest, Scans (s.st.buf ++ i.delivers) evs rest ∧
      exec i s = .next { s with
        st := ⟨true, rest, s.st.malf + BitVec.ofNat 32 (discards evs)⟩
        responses := s.responses ++
          [⟨.ok, BitVec.ofNat 8 (accepted evs).length :: (accepted evs).flatMap Frame.raw⟩] }) ∧
  (∀ (i : Instr) (s : State), i.isReceive = true → s.st.init = false →
    exec i s = .next { s with responses := s.responses ++ [⟨.notInit, []⟩] }) ∧
  (∀ (a : Byte) (data : List Byte), decode ⟨0x30#8, a, 0#8, data⟩ = .instr (.feed a)) ∧
  (∀ (a b : Byte) (data : List Byte), b ≠ 0#8 →
    decode ⟨0x30#8, a, b, data⟩ = .illegal (.reservedField 0x30#8 a b)) ∧
  (∀ (b : Byte) (data : List Byte), decode ⟨0x31#8, 0#8, b, data⟩ = .instr (.feedn data)) ∧
  (∀ (a b : Byte) (data : List Byte), a ≠ 0#8 →
    decode ⟨0x31#8, a, b, data⟩ = .illegal (.reservedField 0x31#8 a b))

/-- The scan rules decide everything: a stream has one sequence of events and one rest. -/
def Obligations.ScanRulesAreDeterministic : Prop :=
  ∀ (buf : List Byte) (evs evs' : List ScanEvent) (rest rest' : List Byte),
    Scans buf evs rest → Scans buf evs' rest' → evs = evs' ∧ rest = rest'

/-- R50, R143, R147: a scan cuts the stream, in order and without overlap, into discarded heads, accepted windows that are
valid frames, and what is left at rest. -/
def Obligations.ScanPartitionsTheStream : Prop :=
  ∀ (buf : List Byte) (evs : List ScanEvent) (rest : List Byte), Scans buf evs rest →
    buf = evs.flatMap ScanEvent.bytes ++ rest ∧ restShape rest = true ∧ ∀ f ∈ accepted evs, f.Valid

/-- R142 case c, R234: a byte that leaves the head's window incomplete is buffered, and nothing is answered or counted. -/
def Obligations.FeedStallsOnAnIncompleteWindow : Prop :=
  ∀ (s : State) (b head : Byte) (rest : List Byte), s.st.init = true → s.st.buf ++ [b] = head :: rest →
    head ≠ 0#8 → rest.length ≤ head.toNat →
    exec (.feed b) s = .next { s with
      st := { s.st with buf := s.st.buf ++ [b] }, responses := s.responses ++ [⟨.ok, [0x00#8]⟩] }

/-- R143, R151: the byte that completes a valid window of any L from 1 to 255 makes FEED answer that frame and empty the
buffer, whatever MAX_PAYLOAD is; the counter is unchanged. -/
def Obligations.FeedAcceptsACompletedFrameOfAnyLength : Prop :=
  ∀ (s : State) (b : Byte) (f : Frame), s.st.init = true → s.st.buf ++ [b] = f.raw → f.Valid →
    exec (.feed b) s = .next { s with
      st := { s.st with buf := [] }, responses := s.responses ++ [⟨.ok, 0x01#8 :: f.raw⟩] }

/-- R144, R142 case e: the byte that completes a window that fails the sum makes FEED do exactly what receiving the bytes after
the head into an empty buffer does, with the discarded head counted. -/
def Obligations.FeedDropsTheHeadOfAMismatchedWindow : Prop :=
  ∀ (s : State) (b head : Byte) (rest : List Byte), s.st.init = true → s.st.buf ++ [b] = head :: rest →
    head ≠ 0#8 → rest.length = head.toNat + 1 → sumBytes (head :: rest) % 256 ≠ 0 →
    ∃ t, exec (.feed b) s = .next t ∧
      exec (.feedn rest) { s with st := ⟨true, [], s.st.malf + 1#32⟩ } = .next t

/-- R145, R23, R237: a zero byte into an empty buffer is discarded at once and counted modulo 2^32. -/
def Obligations.ZeroHeadsAreDiscardedAtOnce : Prop :=
  ∀ s : State, s.st.init = true → s.st.buf = [] →
    exec (.feed 0x00#8) s = .next { s with
      st := ⟨true, [], BitVec.ofNat 32 ((s.st.malf.toNat + 1) % 2 ^ 32)⟩
      responses := s.responses ++ [⟨.ok, [0x00#8]⟩] }

/-- R149: FEEDN of no bytes changes nothing and answers no frame; FEEDN of a byte and more is FEED of the byte, then FEEDN of the
rest, with the frames concatenated. -/
def Obligations.FeednIsSuccessiveFeeds : Prop :=
  (∀ s : State, s.st.init = true →
    exec (.feedn []) s = .next { s with responses := s.responses ++ [⟨.ok, [0x00#8]⟩] }) ∧
  (∀ (s : State) (b : Byte) (data : List Byte), s.st.init = true →
    ∃ (s₁ t : State) (fs gs : List Frame),
      exec (.feed b) s = .next s₁ ∧ s₁.responses = s.responses ++ [⟨.ok, serializeFrames fs⟩] ∧
      exec (.feedn data) s₁ = .next t ∧ t.responses = s₁.responses ++ [⟨.ok, serializeFrames gs⟩] ∧
      exec (.feedn (b :: data)) s =
        .next { s with st := t.st, responses := s.responses ++ [⟨.ok, serializeFrames (fs ++ gs)⟩] })

/-- R149, R150: from rest, extracting once after a whole chunk gives the same frames, buffer and counter as extracting after
every byte. -/
def Obligations.ExtractingOnceEqualsExtractingAfterEveryByte : Prop :=
  ∀ (c : Codec) (data : List Byte), restShape c.buf = true →
    extract { st := { c with buf := c.buf ++ data }, out := [] } = receive data c

/-- R146: every pass that goes on shortens the buffer, and len(buf) + 1 passes always end the scan; more change nothing. -/
def Obligations.ScanEndsWithinItsPassBound : Prop :=
  (∀ sc sc' : Scan, scanPass sc = some sc' → sc'.st.buf.length < sc.st.buf.length) ∧
  (∀ (sc : Scan) (n : Nat), sc.st.buf.length + 1 ≤ n →
    scanPass (scanLoop n sc) = none ∧ scanLoop n sc = extract sc)

/-- R150: the frames answered, the final buffer and the final counter depend only on the stream, not on how it is split into
FEED and FEEDN nor on the other operations interleaved. -/
def Obligations.SplittingTheStreamChangesNothing : Prop :=
  ∀ (s₁ s₂ : State) (ops₁ ops₂ : List Instr), s₁.st = s₂.st → s₁.st.init = true →
    (∀ i ∈ ops₁, i ≠ .reset) → (∀ i ∈ ops₂, i ≠ .reset) → stream ops₁ = stream ops₂ →
    ∃ t₁ t₂ rs₁ rs₂, runOps ops₁ s₁ = .next t₁ ∧ runOps ops₂ s₂ = .next t₂ ∧
      t₁.responses = s₁.responses ++ rs₁ ∧ t₂.responses = s₂.responses ++ rs₂ ∧
      rs₁.length = ops₁.length ∧ rs₂.length = ops₂.length ∧
      t₁.st = t₂.st ∧ answeredWindows ops₁ rs₁ = answeredWindows ops₂ rs₂

/-- R152: a valid frame that occupies positions s on in a stream delivered into an empty buffer is emitted exactly when no
accepted window that starts before s ends at or after s, and it is decided by the time 256 bytes from its first byte on have
been delivered. -/
def Obligations.FramesAreLostOnlyToCoveringWindows : Prop :=
  ∀ (s : State) (ops : List Instr) (g tail : List Byte) (F : Frame), s.st.init = true → s.st.buf = [] →
    (∀ i ∈ ops, i ≠ .reset) → F.Valid → stream ops = g ++ F.raw ++ tail → 256 ≤ (F.raw ++ tail).length →
    ∃ t rs evs, runOps ops s = .next t ∧ t.responses = s.responses ++ rs ∧ rs.length = ops.length ∧
      Scans (stream ops) evs t.st.buf ∧ answeredWindows ops rs = (accepted evs).flatMap Frame.raw ∧
      ((∃ pre post, evs = pre ++ .accept F :: post ∧ width pre = g.length) ↔
        ¬ ∃ pre f post, evs = pre ++ .accept f :: post ∧ width pre < g.length ∧
          g.length < width pre + f.raw.length)

/-- R154: what is buffered after any run without RESET is a suffix of the stream of at most 256 bytes; so a byte behind which 256
more have been delivered has left the buffer. -/
def Obligations.NoByteStaysFor256MoreBytes : Prop :=
  ∀ (s : State) (ops : List Instr), s.st.init = true → s.Inv → (∀ i ∈ ops, i ≠ .reset) →
    ∃ t, runOps ops s = .next t ∧ t.st.buf <:+ s.st.buf ++ stream ops ∧ t.st.buf.length ≤ 256 ∧
      (256 ≤ (stream ops).length → t.st.buf <:+ stream ops)

/-- R155, R78: ZFLUSH delivers 256 zero bytes and always leaves the buffer empty; 255 zeros do not empty a buffer that holds
0xFF. -/
def Obligations.ZflushEmptiesTheBuffer : Prop :=
  stream zflush = List.replicate 256 0x00#8 ∧
  (∀ s : State, s.st.init = true → s.Inv → ∃ t, runOps zflush s = .next t ∧ t.st.init = true ∧ t.st.buf = []) ∧
  (∀ s : State, s.st.init = true → s.st.buf = [0xFF#8] →
    ∃ t, exec (.feedn (List.replicate 255 0x00#8)) s = .next t ∧ t.st.buf.length = 256 ∧ t.st.malf = s.st.malf)

/-- R156, R76: an operation that delivers n bytes answers at most ⌊(256 + n)/3⌋ frames, so FEED at most 85, and a well-formed
operation at most 170; the consumer reads exactly those frames back from RDATA, each a valid frame. -/
def Obligations.FrameListsAreBoundedAndReadBack : Prop :=
  ∀ (i : Instr) (s : State), i.isReceive = true → i.WellFormed → s.st.init = true → s.Inv →
    ∃ (t : State) (fs : List Frame), exec i s = .next t ∧
      t.responses = s.responses ++ [⟨.ok, BitVec.ofNat 8 fs.length :: fs.flatMap Frame.raw⟩] ∧
      parseFrameList (BitVec.ofNat 8 fs.length :: fs.flatMap Frame.raw) = some fs ∧ (∀ f ∈ fs, f.Valid) ∧
      fs.length ≤ (256 + i.delivers.length) / 3 ∧ fs.length ≤ 170 ∧ (i.delivers.length = 1 → fs.length ≤ 85)

/-- R157: from a RESET on, the bytes delivered are exactly those of the accepted windows, the discarded heads and the buffer, and
the counter is the number of discards modulo 2^32. -/
def Obligations.EveryDeliveredByteIsAccountedFor : Prop :=
  ∀ (s : State) (ops : List Instr), s.st.init = true → s.st.buf = [] → s.st.malf = 0#32 →
    (∀ i ∈ ops, i.isReceive = true) →
    ∃ t rs, runOps ops s = .next t ∧ t.responses = s.responses ++ rs ∧ rs.length = ops.length ∧
      ∃ D : Nat, (stream ops).length = (answeredWindows ops rs).length + D + t.st.buf.length ∧
        t.st.malf.toNat = D % 2 ^ 32

/-- R78: FEEDS expands to well-formed FEEDN operations, ⌊len/255⌋ of 255 bytes and one of the remaining bytes if there are any,
that deliver its bytes in order. -/
def Obligations.FeedsDeliversItsBytesInOrder : Prop :=
  ∀ bytes : List Byte,
    stream (feeds bytes) = bytes ∧ (feeds bytes).length = (bytes.length + 254) / 255 ∧
    ∀ i ∈ feeds bytes, i.WellFormed ∧ ∃ data, i = .feedn data ∧ data ≠ []
end

