-- ==== Sys2Proof/Laws/Frames.lean ====
section
/-! SUPPORT. The sum of byte sequences, and the one spec lemma of `parseFrame`: it answers a record exactly for the bytes of a
valid frame. -/

namespace Sys2Proof.Machine

/-! ### Sums -/

@[simp] theorem sumBytes_nil : sumBytes [] = 0 := rfl

@[simp] theorem sumBytes_cons (b : Byte) (s : List Byte) : sumBytes (b :: s) = b.toNat + sumBytes s := by
  simp [sumBytes]

@[simp] theorem sumBytes_append (s t : List Byte) : sumBytes (s ++ t) = sumBytes s + sumBytes t := by
  simp [sumBytes]

theorem valid8_iff (w : List Byte) : valid8 w = true ↔ sumBytes w % 256 = 0 := by
  simp [valid8, sum8]

theorem csum_toNat (s : List Byte) : (csum s).toNat = (256 - sumBytes s % 256) % 256 := by
  simp [csum, sum8]

/-! ### Frames -/

theorem raw_eq (f : Frame) : f.raw = f.len :: f.cmd :: (f.payload ++ [f.csum]) := rfl

@[simp] theorem raw_length (f : Frame) : f.raw.length = f.payload.length + 3 := by
  simp [raw_eq]

theorem Frame.Valid.raw_length {f : Frame} (h : f.Valid) : f.raw.length = f.len.toNat + 2 := by
  have := h.2.1
  simp only [Machine.raw_length]
  omega

theorem len_pos {b : Byte} (h : b ≠ 0#8) : 0 < b.toNat := by
  rcases Nat.eq_zero_or_pos b.toNat with h0 | h0
  · exact absurd (BitVec.eq_of_toNat_eq (by simpa using h0)) h
  · exact h0

/-- `parseFrame` answers a record exactly for the bytes of a valid frame, and it is that frame's record (R63, R69). -/
theorem parseFrame_eq_some_iff (w : List Byte) (f : Frame) : parseFrame w = some f ↔ w = f.raw ∧ f.Valid := by
  constructor
  · intro h
    match w, h with
    | [], h => simp [parseFrame] at h
    | [_], h => simp [parseFrame] at h
    | l :: c :: rest, h =>
      simp only [parseFrame] at h
      split at h
      · rename_i hv
        split at h
        · rename_i cs hd
          injection h with h
          subst h
          have hw : rest = rest.take (l.toNat - 1) ++ [cs] := by
            rw [← hd, List.take_append_drop]
          have hlen : rest.length = l.toNat := by
            have h1 := congrArg List.length hd
            simp only [List.length_drop, List.length_singleton] at h1
            have := len_pos hv.1
            omega
          refine ⟨by rw [raw_eq]; simpa using hw, hv.1, ?_, ?_⟩
          · have := len_pos hv.1
            simp [List.length_take, hlen]
            omega
          · have := (valid8_iff _).1 hv.2
            rw [raw_eq]
            simpa [← hw] using this
        · cases h
      · cases h
  · rintro ⟨rfl, h0, hl, hs⟩
    have hv : valid8 f.raw = true := (valid8_iff _).2 hs
    rw [raw_eq] at hv ⊢
    simp [parseFrame, h0, hv, hl]

theorem parseFrame_raw {f : Frame} (h : f.Valid) : parseFrame f.raw = some f :=
  (parseFrame_eq_some_iff _ _).2 ⟨rfl, h⟩

/-- A window of the right length is no frame exactly when its sum fails (R142 cases d and e). -/
theorem parseFrame_window_eq_none_iff {l : Byte} {rest : List Byte} (h0 : l ≠ 0#8) (hl : rest.length = l.toNat + 1) :
    parseFrame (l :: rest) = none ↔ sumBytes (l :: rest) % 256 ≠ 0 := by
  match rest, hl with
  | [], hl => simp at hl
  | c :: rest, hl =>
    have hlen : rest.length = l.toNat := by simpa using hl
    have hpos := len_pos h0
    have hd : ∃ cs, rest.drop (l.toNat - 1) = [cs] := by
      rw [← List.length_eq_one_iff]
      simp [hlen]
      omega
    obtain ⟨cs, hd⟩ := hd
    simp only [parseFrame, hd, ne_eq, h0, not_false_eq_true, true_and, valid8_iff]
    simp

end Sys2Proof.Machine
end

