-- ==== Sys2Proof/Laws/State.lean ====
section
/-! SUPPORT. One lemma per field per update of the state, and the spec lemmas of the operations that end an operation. -/

namespace Sys2Proof.Machine

/-! ### respond -/

@[simp] theorem respond_st (e : Status) (d : List Byte) (s : State) : (s.respond e d).st = s.st := rfl
@[simp] theorem respond_hostQ (e : Status) (d : List Byte) (s : State) : (s.respond e d).hostQ = s.hostQ := rfl
@[simp] theorem respond_transportQ (e : Status) (d : List Byte) (s : State) :
    (s.respond e d).transportQ = s.transportQ := rfl
@[simp] theorem respond_grants (e : Status) (d : List Byte) (s : State) : (s.respond e d).grants = s.grants := rfl
@[simp] theorem respond_responses (e : Status) (d : List Byte) (s : State) :
    (s.respond e d).responses = s.responses ++ [{ status := e, rdata := d }] := rfl
@[simp] theorem respond_cfg (e : Status) (d : List Byte) (s : State) : (s.respond e d).cfg = s.cfg := rfl

/-- An error is a response without data and nothing else (R201). -/
@[simp] theorem raise_eq_respond (e : Status) (s : State) : s.raise e = s.respond e [] := rfl

/-! ### withCodec -/

@[simp] theorem withCodec_st (c : Codec) (s : State) : (s.withCodec c).st = c := rfl
@[simp] theorem withCodec_hostQ (c : Codec) (s : State) : (s.withCodec c).hostQ = s.hostQ := rfl
@[simp] theorem withCodec_transportQ (c : Codec) (s : State) : (s.withCodec c).transportQ = s.transportQ := rfl
@[simp] theorem withCodec_grants (c : Codec) (s : State) : (s.withCodec c).grants = s.grants := rfl
@[simp] theorem withCodec_responses (c : Codec) (s : State) : (s.withCodec c).responses = s.responses := rfl
@[simp] theorem withCodec_cfg (c : Codec) (s : State) : (s.withCodec c).cfg = s.cfg := rfl

/-! ### setQueue -/

@[simp] theorem setQueue_st (a : Agent) (q : List Byte) (s : State) : (s.setQueue a q).st = s.st := by
  cases a <;> rfl
@[simp] theorem setQueue_grants (a : Agent) (q : List Byte) (s : State) : (s.setQueue a q).grants = s.grants := by
  cases a <;> rfl
@[simp] theorem setQueue_responses (a : Agent) (q : List Byte) (s : State) :
    (s.setQueue a q).responses = s.responses := by
  cases a <;> rfl
@[simp] theorem setQueue_cfg (a : Agent) (q : List Byte) (s : State) : (s.setQueue a q).cfg = s.cfg := by
  cases a <;> rfl
@[simp] theorem queue_setQueue_same (a : Agent) (q : List Byte) (s : State) : (s.setQueue a q).queue a = q := by
  cases a <;> rfl
theorem queue_setQueue_other {a a' : Agent} (h : a' ≠ a) (q : List Byte) (s : State) :
    (s.setQueue a q).queue a' = s.queue a' := by
  cases a <;> cases a' <;> first | rfl | exact absurd rfl h

/-! ### The codec's updates -/

@[simp] theorem bufPush_init (b : Byte) (c : Codec) : (c.bufPush b).init = c.init := rfl
@[simp] theorem bufPush_buf (b : Byte) (c : Codec) : (c.bufPush b).buf = c.buf ++ [b] := rfl
@[simp] theorem bufPush_malf (b : Byte) (c : Codec) : (c.bufPush b).malf = c.malf := rfl
@[simp] theorem bufDrop_init (k : Nat) (c : Codec) : (c.bufDrop k).init = c.init := rfl
@[simp] theorem bufDrop_buf (k : Nat) (c : Codec) : (c.bufDrop k).buf = c.buf.drop k := rfl
@[simp] theorem bufDrop_malf (k : Nat) (c : Codec) : (c.bufDrop k).malf = c.malf := rfl
@[simp] theorem bufClear_init (c : Codec) : c.bufClear.init = c.init := rfl
@[simp] theorem bufClear_buf (c : Codec) : c.bufClear.buf = [] := rfl
@[simp] theorem bufClear_malf (c : Codec) : c.bufClear.malf = c.malf := rfl
@[simp] theorem codec_reset_init (c : Codec) : c.reset.init = true := rfl
@[simp] theorem codec_reset_buf (c : Codec) : c.reset.buf = [] := rfl
@[simp] theorem codec_reset_malf (c : Codec) : c.reset.malf = 0#32 := rfl

/-! ### whenInit -/

theorem whenInit_of_init {s : State} (h : s.st.init = true) (f : State → State) : s.whenInit f = f s := by
  simp [State.whenInit, h]

theorem whenInit_of_not_init {s : State} (h : s.st.init = false) (f : State → State) :
    s.whenInit f = s.respond .notInit [] := by
  simp [State.whenInit, h]

end Sys2Proof.Machine
end

