-- ==== Sys2Proof/Laws/Meanings.lean ====
section
/-! SUPPORT. Each meaning as one equation, for an initialised codec and for one that is not. -/

namespace Sys2Proof.Machine

variable {s : State}

theorem exec_reset (s : State) : exec .reset s = .next ((s.withCodec s.st.reset).respond .ok []) := rfl

theorem exec_status (h : s.st.init = true) : exec .status s = .next (s.respond .ok (statusRecord s.st)) := by
  simp [exec, execStatus, whenInit_of_init h]

theorem exec_csumGen (h : s.st.init = true) (data : List Byte) :
    exec (.csumGen data) s = .next (s.respond .ok [csum data]) := by
  simp [exec, execCsumGen, whenInit_of_init h]

theorem exec_csumCheck (h : s.st.init = true) (data : List Byte) :
    exec (.csumCheck data) s = .next (s.respond .ok [if valid8 data then 0x01#8 else 0x00#8]) := by
  simp [exec, execCsumCheck, whenInit_of_init h]

theorem exec_encode_of_le (h : s.st.init = true) (cmd : Byte) {p : List Byte}
    (hp : p.length ≤ s.cfg.maxPayload.val) :
    exec (.encode cmd p) s = .next (s.respond .ok (buildFrame cmd p)) := by
  have : ¬ s.cfg.maxPayload.val < p.length := by omega
  simp [exec, execEncode, whenInit_of_init h, this]

theorem exec_encode_of_gt (h : s.st.init = true) (cmd : Byte) {p : List Byte}
    (hp : s.cfg.maxPayload.val < p.length) :
    exec (.encode cmd p) s = .next (s.respond .invalidArgument []) := by
  simp [exec, execEncode, whenInit_of_init h, hp]

theorem exec_feed (h : s.st.init = true) (b : Byte) :
    exec (.feed b) s = .next (s.finishReceive (receive [b] s.st)) := by
  simp [exec, execFeed, whenInit_of_init h]

theorem exec_feedn (h : s.st.init = true) (data : List Byte) :
    exec (.feedn data) s = .next (s.finishReceive (receive data s.st)) := by
  simp [exec, execFeedn, whenInit_of_init h]

theorem finishReceive_eq (sc : Scan) (s : State) :
    s.finishReceive sc = (s.withCodec sc.st).respond .ok (serializeFrames sc.out) := rfl

end Sys2Proof.Machine
end

