-- ==== Sys2Proof/Laws/Port.lean ====
section
/-! SUPPORT. Framing, the acceptance of an operation, the hold of a full response port, and everything one step can do. -/

namespace Sys2Proof

/-! ### Framing (R70) -/

theorem takeTransaction_bytes {t : Transaction} (h : t.WellFormed) (rest : List Byte) :
    takeTransaction (t.bytes ++ rest) = some (t, rest) := by
  obtain ⟨op, a, b, data⟩ := t
  simp only [Transaction.WellFormed] at h
  simp [takeTransaction, Transaction.bytes, ← h]

theorem takeTransaction_eq_some {bs rest : List Byte} {t : Transaction} (h : takeTransaction bs = some (t, rest)) :
    t.WellFormed ∧ bs = t.bytes ++ rest := by
  match bs, h with
  | [], h => simp [takeTransaction] at h
  | [_], h => simp [takeTransaction] at h
  | [_, _], h => simp [takeTransaction] at h
  | op :: a :: b :: data, h =>
    simp only [takeTransaction] at h
    split at h
    · rename_i hl
      simp only [Option.some.injEq, Prod.mk.injEq] at h
      obtain ⟨rfl, rfl⟩ := h
      simp [Transaction.WellFormed, Transaction.bytes, hl]
    · cases h

namespace Machine

/-! ### Acceptance -/

theorem fetch_none_of_no_grant {s : State} (h : s.grants = []) : fetch s = none := by
  simp [fetch, h]

theorem fetch_none_of_incomplete {s : State} {a : Agent} {g : List Agent} (h : s.grants = a :: g)
    (hq : takeTransaction (s.queue a) = none) : fetch s = none := by
  simp [fetch, h, hq]

theorem fetch_of_complete {s : State} {a : Agent} {g : List Agent} {t : Transaction} {q : List Byte}
    (h : s.grants = a :: g) (hq : takeTransaction (s.queue a) = some (t, q)) :
    fetch s = some (decode t, { s.setQueue a q with grants := g }) := by
  simp [fetch, h, hq]

/-- An accepted operation is the granted agent's oldest transaction, and it has left that agent's queue. -/
theorem fetch_eq_some {s s' : State} {d : Decoded} (h : fetch s = some (d, s')) :
    ∃ a g t q, s.grants = a :: g ∧ t.WellFormed ∧ s.queue a = t.bytes ++ q ∧ d = decode t ∧
      s' = { s.setQueue a q with grants := g } := by
  match hg : s.grants with
  | [] => simp [fetch, hg] at h
  | a :: g =>
    match hq : takeTransaction (s.queue a) with
    | none => simp [fetch_none_of_incomplete hg hq] at h
    | some (t, q) =>
      rw [fetch_of_complete hg hq] at h
      simp only [Option.some.injEq, Prod.mk.injEq] at h
      obtain ⟨hwf, hbs⟩ := takeTransaction_eq_some hq
      exact ⟨a, g, t, q, rfl, hwf, hbs, h.1.symm, h.2.symm⟩

/-! ### The hold of a full response port (R53) -/

theorem fits_of_unbounded {s : State} (h : s.cfg.outDepth = none) : s.fits = true := by
  simp [State.fits, h]

theorem fits_of_depth {s : State} {d : Nat} (h : s.cfg.outDepth = some d) :
    s.fits = true ↔ s.pendingBytes ≤ d := by
  simp [State.fits, h]

theorem hold_of_fits {s s' : State} (h : s'.fits = true) : hold s (.next s') = .next s' := by
  simp [hold, h]

theorem hold_of_not_fits {s s' : State} (h : s'.fits = false) : hold s (.next s') = .next s := by
  simp [hold, h]

/-- A held operation leaves the machine as it was; one that fits has its own outcome. -/
theorem hold_next {s s' : State} {o : Host.Outcome State Fault Refusal} (h : hold s o = .next s') :
    s' = s ∨ o = .next s' := by
  cases o with
  | next t =>
    simp only [hold] at h
    split at h
    · exact .inr h
    · exact .inl (by simpa using h.symm)
  | fault r => simp [hold] at h
  | refused r => simp [hold] at h

/-! ### One step -/

/-- Everything a step can do: nothing; or run the accepted operation; or answer an illegal transaction. -/
theorem step_next_cases {s s' : State} (h : step s = .next s') :
    s' = s ∨
    (∃ i s1, fetch s = some (.instr i, s1) ∧ exec i s1 = .next s') ∨
    (∃ why s1, fetch s = some (.illegal why, s1) ∧ s' = raiseIllegal why s1) := by
  unfold step at h
  split at h
  · exact .inl (by simpa using h.symm)
  · rename_i i s1 hf
    exact (hold_next h).imp id fun he => .inl ⟨i, s1, hf, he⟩
  · rename_i why s1 hf
    exact (hold_next h).imp id fun he => .inr ⟨why, s1, hf, by simpa using he.symm⟩

end Machine

end Sys2Proof
end

