-- ==== Sys2Proof/Laws/PerInstr.lean ====
section
/-! SUPPORT. The family Framing: the encoder's transaction of a well-formed operation carries exactly B data bytes, so that the
port frames it (30_encoding.md R70, R72). -/

namespace Sys2Proof.Laws.Framing

/-- The transaction of a well-formed operation is well-formed. -/
abbrev Statement (i : Instr) : Prop := i.WellFormed → i.transaction.WellFormed

theorem reset : Statement .reset := fun _ => rfl

theorem status : Statement .status := fun _ => rfl

theorem csumGen (data : List Byte) : Statement (.csumGen data) := by
  intro h
  simp only [Instr.WellFormed, Instr.data] at h
  simp [Transaction.WellFormed, Instr.transaction]
  omega

theorem csumCheck (data : List Byte) : Statement (.csumCheck data) := by
  intro h
  simp only [Instr.WellFormed, Instr.data] at h
  simp [Transaction.WellFormed, Instr.transaction]
  omega

theorem encode (cmd : Byte) (payload : List Byte) : Statement (.encode cmd payload) := by
  intro h
  simp only [Instr.WellFormed, Instr.data] at h
  simp [Transaction.WellFormed, Instr.transaction]
  omega

theorem feed (b : Byte) : Statement (.feed b) := fun _ => rfl

theorem feedn (data : List Byte) : Statement (.feedn data) := by
  intro h
  simp only [Instr.WellFormed, Instr.data] at h
  simp [Transaction.WellFormed, Instr.transaction]
  omega

end Sys2Proof.Laws.Framing
end

