-- ==== Sys2Proof/Laws/Scan.lean ====
section
/-! SUPPORT. What one pass of the scan can do, said once, and how the scan of several bytes is put together. -/

namespace Sys2Proof.Machine

@[simp] theorem restShape_nil : restShape [] = true := rfl

theorem restShape_cons (head : Byte) (rest : List Byte) :
    restShape (head :: rest) = true ↔ head ≠ 0#8 ∧ rest.length ≤ head.toNat := by
  simp [restShape]

/-! ### discard and accept -/

@[simp] theorem discard_init (sc : Scan) : sc.discard.st.init = sc.st.init := rfl
@[simp] theorem discard_buf (sc : Scan) : sc.discard.st.buf = sc.st.buf.drop 1 := rfl
@[simp] theorem discard_malf (sc : Scan) : sc.discard.st.malf = sc.st.malf + 1#32 := rfl
@[simp] theorem discard_out (sc : Scan) : sc.discard.out = sc.out := rfl
@[simp] theorem accept_init (f : Frame) (sc : Scan) : (sc.accept f).st.init = sc.st.init := rfl
@[simp] theorem accept_buf (f : Frame) (sc : Scan) : (sc.accept f).st.buf = sc.st.buf.drop (f.len.toNat + 2) := rfl
@[simp] theorem accept_malf (f : Frame) (sc : Scan) : (sc.accept f).st.malf = sc.st.malf := rfl
@[simp] theorem accept_out (f : Frame) (sc : Scan) : (sc.accept f).out = sc.out ++ [f] := rfl

/-! ### The control state (R140) -/

theorem controlState_of_nil {c : Codec} (h : c.buf = []) : controlState c = .empty := by
  simp [controlState, Codec.bufPeek, h]

theorem controlState_of_cons {c : Codec} {head : Byte} {rest : List Byte} (h : c.buf = head :: rest) :
    controlState c =
      if head = 0#8 then .zero
      else if rest.length ≤ head.toNat then .collect head.toNat (rest.length + 1)
      else .eval head.toNat := by
  simp only [controlState, Codec.bufPeek, h, List.getElem?_cons_zero, List.length_cons]
  have : (rest.length + 1 < head.toNat + 2) ↔ rest.length ≤ head.toNat := by omega
  simp only [this]

/-! ### One pass (R142) -/

theorem scanPass_nil {sc : Scan} (h : sc.st.buf = []) : scanPass sc = none := by
  simp [scanPass, controlState_of_nil h]

theorem scanPass_zero {sc : Scan} {rest : List Byte} (h : sc.st.buf = 0#8 :: rest) : scanPass sc = some sc.discard := by
  simp [scanPass, controlState_of_cons h]

theorem scanPass_collect {sc : Scan} {head : Byte} {rest : List Byte} (h : sc.st.buf = head :: rest) (h0 : head ≠ 0#8)
    (hl : rest.length ≤ head.toNat) : scanPass sc = none := by
  simp [scanPass, controlState_of_cons h, h0, hl]

theorem scanPass_eval {sc : Scan} {head : Byte} {rest : List Byte} (h : sc.st.buf = head :: rest) (h0 : head ≠ 0#8)
    (hl : head.toNat < rest.length) :
    scanPass sc =
      match parseFrame ((head :: rest).take (head.toNat + 2)) with
      | some f => some (sc.accept f)
      | none => some sc.discard := by
  have hl' : ¬ rest.length ≤ head.toNat := by omega
  cases hp : parseFrame ((head :: rest).take (head.toNat + 2)) <;>
    simp only [scanPass, controlState_of_cons h, h0, hl', if_false, h, hp]

/-- The scan stops exactly at the two rest shapes (R142 cases a and c, R147). -/
theorem scanPass_eq_none_iff (sc : Scan) : scanPass sc = none ↔ restShape sc.st.buf = true := by
  match hb : sc.st.buf with
  | [] => simp [scanPass_nil hb]
  | head :: rest =>
    rw [restShape_cons]
    by_cases h0 : head = 0#8
    · subst h0
      simp [scanPass_zero hb]
    · by_cases hl : rest.length ≤ head.toNat
      · simp [scanPass_collect hb h0 hl, h0, hl]
      · rw [scanPass_eval hb h0 (by omega)]
        cases parseFrame ((head :: rest).take (head.toNat + 2)) <;> simp [hl]

/-- Everything that a pass that goes on can do: the head is zero and discarded; or the head's window is complete and is the
bytes of a valid frame, which is accepted; or the complete window fails the sum and the head is discarded (R142 b, d, e). -/
theorem scanPass_cases {sc sc' : Scan} (h : scanPass sc = some sc') :
    ∃ head rest, sc.st.buf = head :: rest ∧
      ((head = 0#8 ∧ sc' = sc.discard) ∨
       (head ≠ 0#8 ∧ head.toNat < rest.length ∧
         ∃ f tail, f.Valid ∧ f.len = head ∧ sc.st.buf = f.raw ++ tail ∧ sc' = sc.accept f) ∨
       (head ≠ 0#8 ∧ head.toNat < rest.length ∧ sumBytes ((head :: rest).take (head.toNat + 2)) % 256 ≠ 0 ∧
         sc' = sc.discard)) := by
  match hb : sc.st.buf with
  | [] => simp [scanPass_nil hb] at h
  | head :: rest =>
    refine ⟨head, rest, rfl, ?_⟩
    by_cases h0 : head = 0#8
    · subst h0
      exact .inl ⟨rfl, by simpa [scanPass_zero hb] using h.symm⟩
    · by_cases hl : rest.length ≤ head.toNat
      · simp [scanPass_collect hb h0 hl] at h
      · rw [scanPass_eval hb h0 (by omega)] at h
        refine .inr ?_
        cases hp : parseFrame ((head :: rest).take (head.toNat + 2)) with
        | some f =>
          rw [hp] at h
          obtain ⟨hw, hv⟩ := (parseFrame_eq_some_iff _ _).1 hp
          refine .inl ⟨h0, by omega, f, (head :: rest).drop (head.toNat + 2), hv, ?_, ?_, ?_⟩
          · have := congrArg List.head? hw
            simpa [raw_eq] using this.symm
          · rw [← hw, List.take_append_drop]
          · simpa using h.symm
        | none =>
          rw [hp] at h
          have hw : (head :: rest).take (head.toNat + 2) = head :: rest.take (head.toNat + 1) := rfl
          rw [hw] at hp
          refine .inr ⟨h0, by omega, ?_, by simpa using h.symm⟩
          rw [hw]
          exact (parseFrame_window_eq_none_iff h0 (by simp; omega)).1 hp

/-- Every pass that goes on takes at least one byte off the buffer (R146). -/
theorem scanPass_shortens {sc sc' : Scan} (h : scanPass sc = some sc') : sc'.st.buf.length < sc.st.buf.length := by
  obtain ⟨head, rest, hb, ⟨-, rfl⟩ | ⟨-, -, f, tail, -, -, -, rfl⟩ | ⟨-, -, -, rfl⟩⟩ := scanPass_cases h <;>
    simp [hb]

/-! ### Frames already emitted only stand in front -/

/-- A pass does not look at the frames emitted so far. -/
theorem scanPass_out (c : Codec) (out : List Frame) :
    scanPass { st := c, out := out } =
      (scanPass { st := c, out := [] }).map fun r => { r with out := out ++ r.out } := by
  simp only [scanPass]
  cases controlState c with
  | empty => rfl
  | collect => rfl
  | zero => simp [Scan.discard]
  | eval L =>
    simp only
    cases parseFrame (c.buf.take (L + 2)) <;> simp [Scan.discard, Scan.accept]

theorem scanLoop_out (n : Nat) (c : Codec) (out : List Frame) :
    scanLoop n { st := c, out := out } =
      { scanLoop n { st := c, out := [] } with out := out ++ (scanLoop n { st := c, out := [] }).out } := by
  induction n generalizing c out with
  | zero => simp [scanLoop]
  | succ n ih =>
    simp only [scanLoop]
    rw [scanPass_out]
    cases scanPass { st := c, out := [] } with
    | none => simp
    | some r =>
      obtain ⟨c', o'⟩ := r
      simp only [Option.map_some]
      rw [ih c' (out ++ o'), ih c' o']
      simp

theorem receiveByte_out (c : Codec) (out : List Frame) (b : Byte) :
    receiveByte { st := c, out := out } b =
      { receiveByte { st := c, out := [] } b with out := out ++ (receiveByte { st := c, out := [] } b).out } :=
  scanLoop_out _ _ _

theorem foldl_receiveByte_out (bs : List Byte) (c : Codec) (out : List Frame) :
    bs.foldl receiveByte { st := c, out := out } =
      { receive bs c with out := out ++ (receive bs c).out } := by
  induction bs generalizing c out with
  | nil => simp [receive]
  | cons b bs ih =>
    simp only [receive, List.foldl_cons]
    rw [receiveByte_out c out]
    obtain ⟨c', o'⟩ := receiveByte { st := c, out := [] } b
    simp only
    rw [ih c' (out ++ o'), ih c' o']
    simp

/-! ### The scan of several bytes -/

@[simp] theorem receive_nil (c : Codec) : receive [] c = { st := c, out := [] } := rfl

theorem receive_singleton (b : Byte) (c : Codec) :
    receive [b] c = extract { st := c.bufPush b, out := [] } := rfl

/-- Receiving two chunks is receiving one after the other, and their frames are concatenated (R149). -/
theorem receive_append (xs ys : List Byte) (c : Codec) :
    receive (xs ++ ys) c =
      { receive ys (receive xs c).st with out := (receive xs c).out ++ (receive ys (receive xs c).st).out } := by
  simp only [receive, List.foldl_append]
  exact foldl_receiveByte_out ys _ _

/-! ### The codec's init flag -/

theorem scanLoop_init (n : Nat) (sc : Scan) : (scanLoop n sc).st.init = sc.st.init := by
  induction n generalizing sc with
  | zero => rfl
  | succ n ih =>
    simp only [scanLoop]
    cases hp : scanPass sc with
    | none => rfl
    | some sc' =>
      simp only
      rw [ih]
      obtain ⟨_, _, _, ⟨_, rfl⟩ | ⟨_, _, _, _, _, _, _, rfl⟩ | ⟨_, _, _, rfl⟩⟩ := scanPass_cases hp <;> rfl

/-- Receiving never changes init. -/
theorem receive_init (bs : List Byte) (c : Codec) : (receive bs c).st.init = c.init := by
  induction bs generalizing c with
  | nil => rfl
  | cons b bs ih =>
    rw [← List.singleton_append, receive_append]
    simp only
    rw [ih, receive_singleton]
    exact scanLoop_init _ _

/-! ### Events -/

@[simp] theorem accepted_nil : accepted [] = [] := rfl
@[simp] theorem accepted_accept (f : Frame) (evs : List ScanEvent) : accepted (.accept f :: evs) = f :: accepted evs := rfl
@[simp] theorem accepted_discard (b : Byte) (evs : List ScanEvent) : accepted (.discard b :: evs) = accepted evs := rfl
@[simp] theorem accepted_append (evs evs' : List ScanEvent) : accepted (evs ++ evs') = accepted evs ++ accepted evs' := by
  simp [accepted]
@[simp] theorem discards_nil : discards [] = 0 := rfl
@[simp] theorem discards_accept (f : Frame) (evs : List ScanEvent) : discards (.accept f :: evs) = discards evs := by
  simp [discards]
@[simp] theorem discards_discard (b : Byte) (evs : List ScanEvent) : discards (.discard b :: evs) = discards evs + 1 := by
  simp [discards]
@[simp] theorem discards_append (evs evs' : List ScanEvent) : discards (evs ++ evs') = discards evs + discards evs' := by
  simp [discards]

/-! ### The scan loop realises the relation `Scans` -/

theorem Scans.rest_atRest {buf rest : List Byte} {evs : List ScanEvent} (h : Scans buf evs rest) :
    restShape rest = true := by
  induction h <;> assumption

/-- A scan goes on from its rest when more bytes arrive: what was decided stays decided. -/
theorem Scans.append {buf rest more last : List Byte} {evs evs' : List ScanEvent} (h : Scans buf evs rest)
    (h' : Scans (rest ++ more) evs' last) : Scans (buf ++ more) (evs ++ evs') last := by
  induction h with
  | rest h => simpa using h'
  | zero h ih => exact .zero (ih h')
  | accept valid h ih =>
    rw [List.append_assoc]
    exact .accept valid (ih h')
  | @mismatch head buf rest evs nonzero complete invalid h ih =>
    refine .mismatch nonzero (by simp; omega) ?_ (ih h')
    have hw : (head :: (buf.append more)).take (head.toNat + 2) = (head :: buf).take (head.toNat + 2) :=
      List.take_append_of_le_length (l₁ := head :: buf) (by simp; omega)
    rw [hw]
    exact invalid

theorem malf_succ (m : Counter) (n : Nat) : m + 1#32 + BitVec.ofNat 32 n = m + BitVec.ofNat 32 (n + 1) := by
  rw [BitVec.add_assoc, BitVec.ofNat_add, BitVec.add_comm 1#32]

/-- The loop with enough passes gives the events and the rest of the relation, counts the discards and emits the accepted
frames behind the earlier ones (R142, R146). -/
theorem scanLoop_scans (n : Nat) (sc : Scan) (hn : sc.st.buf.length + 1 ≤ n) :
    ∃ evs rest, Scans sc.st.buf evs rest ∧
      scanLoop n sc =
        { st := ⟨sc.st.init, rest, sc.st.malf + BitVec.ofNat 32 (discards evs)⟩, out := sc.out ++ accepted evs } := by
  induction n generalizing sc with
  | zero => omega
  | succ n ih =>
    cases hp : scanPass sc with
    | none => exact ⟨[], sc.st.buf, .rest ((scanPass_eq_none_iff _).1 hp), by simp [scanLoop, hp]⟩
    | some sc' =>
      obtain ⟨evs, rest, hs, he⟩ := ih sc' (by have := scanPass_shortens hp; omega)
      simp only [scanLoop, hp, he]
      obtain ⟨head, tl, hb, ⟨rfl, rfl⟩ | ⟨-, -, f, tail, hv, -, hb', rfl⟩ | ⟨h0, hl, hbad, rfl⟩⟩ := scanPass_cases hp
      · simp only [discard_buf, hb, List.drop_one, List.tail_cons] at hs
        exact ⟨.discard 0#8 :: evs, rest, hb ▸ .zero hs, by simp [malf_succ]⟩
      · have hd : sc.st.buf.drop (f.len.toNat + 2) = tail := by rw [hb', ← hv.raw_length]; simp
        simp only [accept_buf, hd] at hs
        exact ⟨.accept f :: evs, rest, hb' ▸ .accept hv hs, by simp⟩
      · simp only [discard_buf, hb, List.drop_one, List.tail_cons] at hs
        exact ⟨.discard head :: evs, rest, hb ▸ .mismatch h0 hl hbad hs, by simp [malf_succ]⟩

/-- Everything that receiving bytes does, from rest: it scans the buffer and the bytes by the relation `Scans`. -/
theorem receive_scans (bs : List Byte) (c : Codec) (h : restShape c.buf = true) :
    ∃ evs rest, Scans (c.buf ++ bs) evs rest ∧
      receive bs c =
        { st := ⟨c.init, rest, c.malf + BitVec.ofNat 32 (discards evs)⟩, out := accepted evs } := by
  induction bs generalizing c with
  | nil => exact ⟨[], c.buf, by simpa using .rest h, by simp⟩
  | cons b bs ih =>
    obtain ⟨e₁, r₁, h₁, he₁⟩ := scanLoop_scans ((c.bufPush b).buf.length + 1) { st := c.bufPush b, out := [] } le_rfl
    have hr : receive [b] c = { st := ⟨c.init, r₁, c.malf + BitVec.ofNat 32 (discards e₁)⟩, out := accepted e₁ } := he₁
    obtain ⟨e₂, r₂, h₂, he₂⟩ := ih ⟨c.init, r₁, c.malf + BitVec.ofNat 32 (discards e₁)⟩ h₁.rest_atRest
    refine ⟨e₁ ++ e₂, r₂, ?_, ?_⟩
    · simpa using h₁.append h₂
    · rw [← List.singleton_append, receive_append, hr, he₂]
      simp [BitVec.add_assoc, BitVec.ofNat_add]

end Sys2Proof.Machine
end

