-- ==== Sys2Proof/Tests/Slice0.lean ====
section
/-! SUPPORT. Tests of the model against the spec's own words, encodings and vectors (95_test_vectors.md), and for each
statement a concrete state and operands that meet its hypotheses. -/

open Sys2Proof Sys2Proof.Machine

-- `decide` unfolds lists of up to 256 bytes.
set_option maxRecDepth 20000

namespace Sys2Proof.Tests

/-! ### Helpers -/

/-- From reset, with another codec state. -/
def withSt (buf : List Byte) (malf : Counter) : State :=
  { State.reset with st := { init := true, buf := buf, malf := malf } }

/-- At power-on, with some contents. -/
def notReady : State := State.powerOn Config.reference [0xAA#8] 7#32

/-- The host agent submits a transaction and is granted. -/
def offered (s : State) (bs : List Byte) : State := (s.submit .host bs).grant .host

/-- One step on an offered transaction: the response bytes and the codec after it. -/
def answer (s : State) (bs : List Byte) : Option (List Byte × Codec) :=
  match step (offered s bs) with
  | .next t => (t.consume).map fun (r, t') => (r.bytes, t'.st)
  | _ => none

/-- The outcome is a next state that meets a condition. -/
def nextWith (o : Host.Outcome State Fault Refusal) (p : State → Bool) : Bool :=
  match o with
  | .next t => p t
  | _ => false

/-! ### Decoding, by words written out from spec/opcode_table.json -/

theorem test_decode_reset : decodeTableWord 24 0b000000010000000000000000 = some .reset := by decide
theorem test_decode_status : decodeTableWord 24 0b000000100000000000000000 = some .status := by decide
theorem test_decode_csumGen : decodeTableWord 24 0b000100000000000000000001 = some (.csumGen [0x00#8]) := by decide
theorem test_decode_csumCheck : decodeTableWord 24 0b000100010000000000000010 = some (.csumCheck [0x00#8, 0x00#8]) := by
  decide
theorem test_decode_encode : decodeTableWord 24 0b001000000100000100000001 = some (.encode 0x41#8 [0x00#8]) := by decide
theorem test_decode_feed : decodeTableWord 24 0b001100001010011000000000 = some (.feed 0xA6#8) := by decide
theorem test_decode_feedn : decodeTableWord 24 0b001100010000000000000001 = some (.feedn [0x00#8]) := by decide
/-- 30_encoding.md R73, R74 and 95_test_vectors.md 2.5: illegal headers. -/
theorem test_decode_illegal :
    decodeTableWord 24 0x000000 = none ∧ decodeTableWord 24 0x030000 = none ∧ decodeTableWord 24 0x120002 = none ∧
    decodeTableWord 24 0x020001 = none ∧ decodeTableWord 24 0x304101 = none ∧ decodeTableWord 24 0x310100 = none := by
  decide
/-- No two rows of the opcode table accept one header. -/
theorem test_table_rows_do_not_overlap :
    opcodeTable.Pairwise fun r r' => r.pattern &&& (r.mask &&& r'.mask) ≠ r'.pattern &&& (r.mask &&& r'.mask) := by
  decide
/-- R70's layout: OP, A, B, then the data bytes in order. -/
theorem test_encode_layout : encode (.encode 0x53#8 [0x03#8, 0x01#8]) = [0x20#8, 0x53#8, 0x02#8, 0x03#8, 0x01#8] := by decide

/-! ### Well-formedness refuses what no transaction carries -/

theorem test_wf_csumGen : ¬ (Instr.csumGen (List.replicate 256 0#8)).WellFormed := by decide
theorem test_wf_csumCheck : ¬ (Instr.csumCheck (List.replicate 256 0#8)).WellFormed := by decide
theorem test_wf_encode : ¬ (Instr.encode 0#8 (List.replicate 256 0#8)).WellFormed := by decide
theorem test_wf_feedn : ¬ (Instr.feedn (List.replicate 256 0#8)).WellFormed := by decide
theorem test_wf_transaction : ¬ (Transaction.mk 0x31#8 0#8 2#8 [0#8]).WellFormed := by decide

/-! ### One step each, by the spec's vectors -/

/-- R180's worked example. -/
theorem test_reset : answer (withSt [0x03#8, 0x53#8, 0x03#8] 5#32) [0x01#8, 0#8, 0#8] = some ([0x00#8], ⟨true, [], 0#32⟩) := by
  decide
/-- 95_test_vectors.md 2.4: RESET with A = 1 at power-on. -/
theorem test_reset_illegal : (answer notReady [0x01#8, 1#8, 0#8]).map (·.1) = some [0x01#8] := by decide
/-- R181's worked example. -/
theorem test_status : (answer (withSt [0x03#8, 0x53#8, 0x03#8] 0#32) [0x02#8, 0#8, 0#8]).map (·.1) =
    some [0x00#8, 0x03#8, 0x03#8, 0#8, 0#8, 0#8, 0#8, 0#8] := by decide
/-- 2.4, after X17's second chunk: MALF = 257. -/
theorem test_status_malf : (answer (withSt [] 257#32) [0x02#8, 0#8, 0#8]).map (·.1) =
    some [0x00#8, 0x01#8, 0#8, 0#8, 0x01#8, 0x01#8, 0#8, 0#8] := by decide
/-- R103's worked example. -/
theorem test_csumGen : (answer State.reset [0x10#8, 0#8, 4#8, 0x03#8, 0x53#8, 0x03#8, 0x01#8]).map (·.1) =
    some [0x00#8, 0xA6#8] := by decide
/-- 2.1: the sum 0x1FE. -/
theorem test_csumGen_carry : (answer State.reset [0x10#8, 0#8, 2#8, 0xFF#8, 0xFF#8]).map (·.1) = some [0x00#8, 0x02#8] := by
  decide
/-- R104's worked example, the failing window. -/
theorem test_csumCheck : (answer State.reset [0x11#8, 0#8, 5#8, 0x03#8, 0x53#8, 0x03#8, 0x01#8, 0xA7#8]).map (·.1) =
    some [0x00#8, 0x00#8] := by decide
/-- 2.1: the empty window is valid. -/
theorem test_csumCheck_empty : (answer State.reset [0x11#8, 0#8, 0#8]).map (·.1) = some [0x00#8, 0x01#8] := by decide
/-- R120's worked example. -/
theorem test_encode : (answer State.reset [0x20#8, 0x53#8, 2#8, 0x03#8, 0x01#8]).map (·.1) =
    some [0x00#8, 0x03#8, 0x53#8, 0x03#8, 0x01#8, 0xA6#8] := by decide
/-- 2.2, with MAX_PAYLOAD = 2: n = 3 is refused. -/
theorem test_encode_too_long :
    (answer { State.reset with cfg := ⟨2, none⟩ } [0x20#8, 0x4C#8, 3#8, 0x01#8, 0x02#8, 0x03#8]).map (·.1) =
    some [0x02#8] := by decide
/-- R141's worked example. -/
theorem test_feed : answer (withSt [0x03#8, 0x53#8, 0x03#8, 0x01#8] 0#32) [0x30#8, 0xA6#8, 0#8] =
    some ([0x00#8, 0x01#8, 0x03#8, 0x53#8, 0x03#8, 0x01#8, 0xA6#8], ⟨true, [], 0#32⟩) := by decide
/-- 2.4: the counter wraps (R237). -/
theorem test_feed_wrap : answer (withSt [] 0xFFFFFFFF#32) [0x30#8, 0x00#8, 0#8] = some ([0x00#8, 0x00#8], ⟨true, [], 0#32⟩) := by
  decide
/-- X5: discard, zero, zero, accept. -/
theorem test_feedn : answer State.reset [0x31#8, 0#8, 6#8, 0x01#8, 0x00#8, 0x00#8, 0x01#8, 0x41#8, 0xBE#8] =
    some ([0x00#8, 0x01#8, 0x01#8, 0x41#8, 0xBE#8], ⟨true, [], 3#32⟩) := by decide
/-- X7's second chunk: a spurious window swallows the real frame. -/
theorem test_feedn_swallow : answer (withSt [0x03#8, 0x01#8, 0x41#8, 0xBE#8] 2#32) [0x31#8, 0#8, 1#8, 0xFD#8] =
    some ([0x00#8, 0x01#8, 0x03#8, 0x01#8, 0x41#8, 0xBE#8, 0xFD#8], ⟨true, [], 2#32⟩) := by decide
/-- 2.4 and R204: NOT_INIT before INVALID_ARGUMENT. -/
theorem test_notInit_first :
    nextWith (exec (.encode 0x41#8 (List.replicate 255 0#8)) notReady)
      (fun t => t.responses == [⟨.notInit, []⟩] && t.st == notReady.st) = true := by decide
/-- 2.5: the illegal transaction `12 00 02 AB CD` consumes its data bytes. -/
theorem test_illegal_consumes :
    nextWith (step (offered State.reset [0x12#8, 0#8, 2#8, 0xAB#8, 0xCD#8]))
      (fun t => t.responses == [⟨.illegalOp, []⟩] && t.hostQ == [] && t.grants == []) = true := by decide
/-- A table word is the first operation to run after reset. -/
theorem test_withFetchWord :
    nextWith (step (State.reset.withFetchWord 24 0x204100))
      (fun t => t.responses == [⟨.ok, [0x01#8, 0x41#8, 0xBE#8]⟩]) = true := by decide

/-! ### Program text (R77, R78) -/

theorem test_assemble_encode : assemble "ENCODE 0x53, [03 01] ; a comment" = some [.encode 0x53#8 [0x03#8, 0x01#8]] := by
  decide
theorem test_assemble_lines : assemble "RESET\nFEEDN [0x03, 53]*2\nFEED 0xA6" =
    some [.reset, .feedn [0x03#8, 0x53#8, 0x03#8, 0x53#8], .feed 0xA6#8] := by decide
theorem test_assemble_feeds : (assemble "FEEDS [01 41 BE]*86").map (·.map fun i => i.data.length) = some [255, 3] := by
  decide
theorem test_assemble_refuses : assemble "FEEDN [01 41 BE]*86" = none ∧ assemble "feed 0x01" = none ∧ assemble "FEED 01" = none := by
  decide

/-! ### Witnesses: concrete values that meet each statement's hypotheses -/

/-- A valid frame, `01 41 BE` (X1). -/
def f1 : Frame := ⟨0x01#8, 0x41#8, [], 0xBE#8⟩

theorem witness_TransactionsAreFramedByTheirLengthByte :
    ([] : List Byte).length = (0#8).toNat ∧ (List.replicate 255 0#8).length = (255#8).toNat ∧
    ([] : List Byte).length < (1#8).toNat ∧ [0x01#8, 0#8].length < 3 := by decide
theorem witness_DecodingAnEncodingGivesTheOperation :
    (Instr.encode 0xFF#8 (List.replicate 255 0#8)).WellFormed ∧ (Instr.feedn []).WellFormed ∧ Instr.reset.WellFormed := by
  decide
theorem witness_EncodingADecodingGivesTheBytes :
    takeTransaction [0x30#8, 0x41#8, 0#8, 0x77#8] = some (⟨0x30#8, 0x41#8, 0#8, []⟩, [0x77#8]) ∧
    decode ⟨0x30#8, 0x41#8, 0#8, []⟩ = .instr (.feed 0x41#8) := by decide
theorem witness_DecodingAgreesWithTheOpcodeTable :
    decode ⟨0x02#8, 0#8, 0#8, []⟩ = .instr .status ∧ opcodeTable.any (·.mnemonic == "STATUS") = true := by decide
theorem witness_StepRunsTheAcceptedOperation :
    (offered State.reset (encode (.feed 0x41#8))).grants = .host :: [] ∧
    (offered State.reset (encode (.feed 0x41#8))).queue .host = encode (.feed 0x41#8) ++ [] ∧
    (Instr.feed 0x41#8).WellFormed ∧ (offered State.reset (encode (.feed 0x41#8))).cfg.outDepth = none := by decide
/-- The four ways of being illegal: a reserved OP (both ends of a gap), A or B of RESET and STATUS, A of CSUM_GEN, B of FEED. -/
theorem witness_IllegalTransactionsAnswerIllegalOp :
    (offered State.reset [0x00#8, 0#8, 0#8]).queue .host = [0x00#8, 0#8, 0#8] ++ [] ++ [] ∧
    ([] : List Byte).length = (0#8).toNat ∧ (offered State.reset [0x00#8, 0#8, 0#8]).grants = .host :: [] ∧
    (0x00#8 : Byte) ∉ [0x01#8, 0x02#8, 0x10#8, 0x11#8, 0x20#8, 0x30#8, 0x31#8] ∧
    (0x32#8 : Byte) ∉ [0x01#8, 0x02#8, 0x10#8, 0x11#8, 0x20#8, 0x30#8, 0x31#8] ∧
    ((0x02#8 : Byte) ∈ [0x01#8, 0x02#8] ∧ (0x01#8 : Byte) ≠ 0#8) ∧
    ((0x31#8 : Byte) ∈ [0x10#8, 0x11#8, 0x31#8] ∧ (0xFF#8 : Byte) ≠ 0#8) ∧
    (offered State.reset [0x30#8, 0x41#8, 1#8, 0x77#8]).queue .host = [0x30#8, 0x41#8, 1#8] ++ [0x77#8] ++ [] := by decide
theorem witness_StepWaitsForACompleteTransaction :
    State.reset.grants = [] ∧ (State.reset.grant .host).grants = .host :: [] ∧
    ((State.reset.grant .host).queue .host).length < 3 ∧
    (offered State.reset [0x31#8, 0#8, 1#8]).queue .host = 0x31#8 :: 0#8 :: 1#8 :: [] ∧
    ([] : List Byte).length < (1#8).toNat := by decide
/-- A port of one byte is too small for the two bytes of FEED's answer, and one of two bytes holds them. -/
theorem witness_FullResponsePortHoldsTheOperation :
    (nextWith (exec (.feed 0x41#8) { State.reset with cfg := ⟨254, some 1⟩ }) fun t =>
      decide (1 < (t.responses.map fun r => r.rdata.length + 1).sum)) = true ∧
    (nextWith (exec (.feed 0x41#8) { State.reset with cfg := ⟨254, some 2⟩ }) fun t =>
      decide ((t.responses.map fun r => r.rdata.length + 1).sum ≤ 2)) = true ∧
    (offered { State.reset with cfg := ⟨254, some 1⟩ } (encode (.feed 0x41#8))).queue .host = encode (.feed 0x41#8) ++ [] := by
  decide
theorem witness_StepKeepsSubmissionAndResponseOrder :
    nextWith (step (offered State.reset (encode .status))) (fun t => t.responses != []) = true ∧
    (offered State.reset (encode .status)).grants = .host :: [] ∧ Agent.transport ≠ Agent.host := by decide
theorem witness_OutsideActionsTouchOnlyTheirPort :
    State.reset.responses = [] ∧ (State.reset.respond .ok []).responses = ⟨.ok, []⟩ :: [] ∧
    Agent.host ≠ Agent.transport := by decide
theorem witness_StepKeepsTheRestInvariant :
    (offered (withSt [0x02#8] 0#32) (encode (.feed 0x41#8))).Inv ∧
    nextWith (step (offered (withSt [0x02#8] 0#32) (encode (.feed 0x41#8)))) (fun t => t.st.buf == [0x02#8, 0x41#8]) = true := by
  decide
theorem witness_RestBoundsTheBuffer :
    restShape [] = true ∧ restShape (0xFF#8 :: List.replicate 255 0#8) = true ∧
    (0xFF#8 :: List.replicate 255 0#8).length = 256 := by decide
theorem witness_ControlStateIsATableOnTheBuffer :
    restShape (withSt [0x01#8, 0x41#8] 0#32).st.buf = true ∧
    controlState (withSt [0x01#8, 0x41#8] 0#32).st = .collect 1 2 ∧
    controlState (withSt [0x01#8, 0x41#8, 0#8] 0#32).st = .eval 1 := by decide
theorem witness_ResetGivesTheResetValues : (0x01#8 : Byte) ≠ 0#8 ∧ ((0#8 : Byte) ≠ 0#8 ∨ (0x01#8 : Byte) ≠ 0#8) := by decide
theorem witness_ResetForgetsTheStream : notReady.cfg = (withSt [0x02#8] 3#32).cfg ∧ notReady.st ≠ (withSt [0x02#8] 3#32).st := by
  decide
theorem witness_NothingButResetRunsBeforeReset :
    notReady.st.init = false ∧ Instr.status ≠ .reset ∧
    nextWith (exec .reset notReady) (fun t => t.st.init) = true := by decide
theorem witness_EveryOperationAnswersOnce :
    nextWith (exec (.encode 0#8 [0#8]) { State.reset with cfg := ⟨0, none⟩ }) (fun t => t.responses == [⟨.invalidArgument, []⟩])
      = true := by decide
theorem witness_ReadingOperationsWriteNothing :
    (Instr.csumGen []).isReceive = false ∧ Instr.csumGen [] ≠ .reset ∧ Instr.csumGen [] ≠ .status ∧
    State.reset.st.init = (withSt [0x02#8] 9#32).st.init ∧ State.reset.cfg = (withSt [0x02#8] 9#32).cfg := by decide
theorem witness_ReceivingWritesOnlyBufferAndCounter :
    (Instr.feedn [0#8]).isReceive = true ∧ State.reset.st = { State.reset with cfg := ⟨0, none⟩ }.st := by decide
theorem witness_TransmitAndReceiveCommute :
    (Instr.encode 0x41#8 []).isReceive = false ∧ Instr.encode 0x41#8 [] ≠ .reset ∧ Instr.encode 0x41#8 [] ≠ .status ∧
    (Instr.feed 0#8).isReceive = true := by decide
theorem witness_StatusCodesAreFour : 4 ≤ (0x04#8 : Byte).toNat ∧ 4 ≤ (0xFF#8 : Byte).toNat := by decide
theorem witness_StatusAnswersTheStatusRecord :
    State.reset.st.init = true ∧ State.reset.Inv ∧ (withSt (0xFF#8 :: List.replicate 255 0#8) 0#32).Inv ∧
    (withSt (0xFF#8 :: List.replicate 255 0#8) 0#32).st.buf.length = 256 ∧ notReady.st.init = false ∧ ((0x01#8 : Byte) ≠ 0#8 ∨ (0#8 : Byte) ≠ 0#8) := by decide
theorem witness_CsumGenAnswersTheChecksum :
    State.reset.st.init = true ∧ notReady.st.init = false ∧ (0x01#8 : Byte) ≠ 0#8 := by decide
theorem witness_CsumCheckAnswersTheSum :
    (withSt [0x05#8] 1#32).st.init = true ∧ notReady.st.init = false ∧ (0xFF#8 : Byte) ≠ 0#8 := by decide
theorem witness_ExactlyOneTrailerValidates : (withSt [] 0#32).st.init = true := by decide
/-- The window of R104's worked example, its byte 1 and its highest bit. -/
theorem witness_SingleBitFlipsAreDetected :
    State.reset.st.init = true ∧ 7 < 8 ∧ [0x03#8, 0x53#8, 0x03#8, 0x01#8, 0xA6#8][1]? = some 0x53#8 ∧
    nextWith (exec (.csumCheck [0x03#8, 0x53#8, 0x03#8, 0x01#8, 0xA6#8]) State.reset)
      (fun t => t.responses == [⟨.ok, [0x01#8]⟩]) = true := by decide
theorem witness_ChecksumsIgnoreByteOrder : [0x01#8, 0x53#8].Perm [0x53#8, 0x01#8] := by decide
theorem witness_EncodeAnswersTheFrame :
    State.reset.st.init = true ∧ (List.replicate 254 0#8).length ≤ State.reset.cfg.maxPayload.val ∧
    State.reset.cfg.maxPayload.val < (List.replicate 255 0#8).length ∧ notReady.st.init = false := by decide
theorem witness_EncoderOutputsAreValidAndDistinct :
    State.reset.st.init = true ∧ ([] : List Byte).length ≤ State.reset.cfg.maxPayload.val ∧
    nextWith (exec (.encode 0xFF#8 []) State.reset) (fun t => t.responses == [⟨.ok, [0x01#8, 0xFF#8, 0x00#8]⟩]) = true := by
  decide
/-- `01 41 BE` delivered as FEEDN of one byte, FEEDN of none, and FEEDN of two. -/
theorem witness_EncodedFramesComeBackFromTheDecoder :
    State.reset.st.init = true ∧ State.reset.st.buf = [] ∧ ([] : List Byte).length ≤ State.reset.cfg.maxPayload.val ∧
    (∀ i ∈ [Instr.feed 0x01#8, .feedn []] ++ [.feedn [0x41#8, 0xBE#8]], i.isReceive = true) ∧
    (Instr.feedn [0x41#8, 0xBE#8]).delivers ≠ [] ∧
    nextWith (exec (.encode 0x41#8 []) State.reset) (fun t => t.responses == [⟨.ok, [0x01#8, 0x41#8, 0xBE#8]⟩]) = true ∧
    stream ([Instr.feed 0x01#8, .feedn []] ++ [.feedn [0x41#8, 0xBE#8]]) = [0x01#8, 0x41#8, 0xBE#8] := by decide
theorem witness_ReceivingFollowsTheScanRules :
    (Instr.feed 0#8).isReceive = true ∧ (Instr.feedn []).isReceive = true ∧ State.reset.st.init = true ∧
    (withSt (0xFF#8 :: List.replicate 255 0#8) 0#32).Inv ∧ notReady.st.init = false ∧ (0x01#8 : Byte) ≠ 0#8 := by
  decide
theorem witness_ScanRulesAreDeterministic : Scans [0x00#8, 0x02#8] [.discard 0x00#8] [0x02#8] := .zero (.rest rfl)
theorem witness_ScanPartitionsTheStream : Scans (f1.raw ++ [0x02#8]) [.accept f1] [0x02#8] := .accept (by decide) (.rest rfl)
/-- One byte short of a window: the head 01 and L = 1 bytes after it. -/
theorem witness_FeedStallsOnAnIncompleteWindow :
    (withSt [0x01#8] 0#32).st.init = true ∧ (withSt [0x01#8] 0#32).st.buf ++ [0x41#8] = 0x01#8 :: [0x41#8] ∧
    (0x01#8 : Byte) ≠ 0#8 ∧ [0x41#8].length ≤ (0x01#8 : Byte).toNat := by decide
theorem witness_FeedAcceptsACompletedFrameOfAnyLength :
    (withSt [0x01#8, 0x41#8] 0#32).st.init = true ∧ (withSt [0x01#8, 0x41#8] 0#32).st.buf ++ [0xBE#8] = f1.raw ∧ f1.Valid := by
  decide
/-- The window `01 00 00` of X5. -/
theorem witness_FeedDropsTheHeadOfAMismatchedWindow :
    (withSt [0x01#8, 0x00#8] 0#32).st.init = true ∧
    (withSt [0x01#8, 0x00#8] 0#32).st.buf ++ [0x00#8] = 0x01#8 :: [0x00#8, 0x00#8] ∧ (0x01#8 : Byte) ≠ 0#8 ∧
    [0x00#8, 0x00#8].length = (0x01#8 : Byte).toNat + 1 ∧ sumBytes (0x01#8 :: [0x00#8, 0x00#8]) % 256 ≠ 0 := by decide
theorem witness_ZeroHeadsAreDiscardedAtOnce :
    (withSt [] 0xFFFFFFFF#32).st.init = true ∧ (withSt [] 0xFFFFFFFF#32).st.buf = [] := by decide
theorem witness_FeednIsSuccessiveFeeds : (withSt [0x02#8] 0#32).st.init = true := by decide
theorem witness_ExtractingOnceEqualsExtractingAfterEveryByte : restShape (withSt [0x03#8, 0x01#8] 0#32).st.buf = true := by decide
theorem witness_ScanEndsWithinItsPassBound :
    (scanPass { st := ⟨true, [0x00#8], 0#32⟩, out := [] }).isSome = true ∧
    (Scan.mk ⟨true, [0x00#8], 0#32⟩ []).st.buf.length + 1 ≤ 2 := by decide
theorem witness_SplittingTheStreamChangesNothing :
    State.reset.st = (State.reset.grant .host).st ∧ State.reset.st.init = true ∧
    (∀ i ∈ [Instr.feed 0x01#8, .status, .feed 0x41#8], i ≠ .reset) ∧ (∀ i ∈ [Instr.feedn [0x01#8, 0x41#8]], i ≠ .reset) ∧
    stream [Instr.feed 0x01#8, .status, .feed 0x41#8] = stream [Instr.feedn [0x01#8, 0x41#8]] := by decide
/-- The zero bytes behind X1's frame reach 256 bytes from its first byte. -/
theorem witness_FramesAreLostOnlyToCoveringWindows :
    State.reset.st.init = true ∧ State.reset.st.buf = [] ∧
    (∀ i ∈ [Instr.feedn (0x00#8 :: f1.raw), .feedn (List.replicate 253 0#8)], i ≠ .reset) ∧ f1.Valid ∧
    stream [Instr.feedn (0x00#8 :: f1.raw), .feedn (List.replicate 253 0#8)] =
      [0x00#8] ++ f1.raw ++ List.replicate 253 0#8 ∧
    256 ≤ (f1.raw ++ List.replicate 253 0#8).length := by decide
theorem witness_NoByteStaysFor256MoreBytes :
    (withSt [0xFF#8] 0#32).st.init = true ∧ (withSt [0xFF#8] 0#32).Inv ∧ (∀ i ∈ zflush, i ≠ .reset) ∧
    256 ≤ (stream zflush).length := by decide
theorem witness_ZflushEmptiesTheBuffer :
    (withSt [0xFF#8] 0#32).st.init = true ∧ (withSt [0xFF#8] 0#32).Inv ∧ (withSt [0xFF#8] 0#32).st.buf = [0xFF#8] := by decide
theorem witness_FrameListsAreBoundedAndReadBack :
    (Instr.feedn (List.replicate 255 0#8)).isReceive = true ∧ (Instr.feedn (List.replicate 255 0#8)).WellFormed ∧
    (withSt (0xFF#8 :: List.replicate 255 0#8) 0#32).st.init = true ∧
    (withSt (0xFF#8 :: List.replicate 255 0#8) 0#32).Inv ∧ (Instr.feed 0#8).delivers.length = 1 := by decide
theorem witness_EveryDeliveredByteIsAccountedFor :
    State.reset.st.init = true ∧ State.reset.st.buf = [] ∧ State.reset.st.malf = 0#32 ∧
    (∀ i ∈ [Instr.feedn [0x01#8], .feed 0x00#8], i.isReceive = true) := by decide

end Sys2Proof.Tests
end

section
/-! SUPPORT. The port reads a well-formed operation's encoding as that operation, and every operation ends in one response. -/

namespace Sys2Proof

/-! ### The port reads what the encoder writes -/

theorem transaction_wellFormed {i : Instr} (h : i.WellFormed) : i.transaction.WellFormed :=
  match i with
  | .reset => Laws.Framing.reset h
  | .status => Laws.Framing.status h
  | .csumGen data => Laws.Framing.csumGen data h
  | .csumCheck data => Laws.Framing.csumCheck data h
  | .encode cmd payload => Laws.Framing.encode cmd payload h
  | .feed b => Laws.Framing.feed b h
  | .feedn data => Laws.Framing.feedn data h

/-- Decoding reads OP and the fields only (R79), so the operation need not be well-formed. -/
@[simp] theorem decode_transaction (i : Instr) : decode i.transaction = .instr i := by
  cases i <;> rfl

theorem takeTransaction_encode {i : Instr} (h : i.WellFormed) (rest : List Byte) :
    takeTransaction (encode i ++ rest) = some (i.transaction, rest) :=
  takeTransaction_bytes (transaction_wellFormed h) rest

namespace Machine

theorem fetch_of_encode {s : State} {a : Agent} {g : List Agent} {i : Instr} {rest : List Byte}
    (hg : s.grants = a :: g) (hq : s.queue a = encode i ++ rest) (hi : i.WellFormed) :
    fetch s = some (.instr i, { s.setQueue a rest with grants := g }) := by
  rw [fetch_of_complete hg (hq ▸ takeTransaction_encode hi rest), decode_transaction]

theorem step_of_fetch_instr {s s' : State} {i : Instr} (h : fetch s = some (.instr i, s')) :
    step s = hold s (exec i s') := by
  simp [step, h]

/-! ### Every operation ends in one response -/

/-- Before any RESET, every other operation answers NOT_INIT and has no effect (R21, R201). -/
theorem exec_of_not_init {s : State} {i : Instr} (h : s.st.init = false) (hi : i ≠ .reset) :
    exec i s = .next (s.respond .notInit []) := by
  cases i with
  | reset => exact absurd rfl hi
  | status | csumGen | csumCheck | encode | feed | feedn => exact congrArg _ (whenInit_of_not_init h _)

/-- All that an operation can do: it may give the codec another state, and it adds one response. -/
theorem exec_eq_respond (i : Instr) (s : State) :
    ∃ c e d, exec i s = .next ((s.withCodec c).respond e d) := by
  by_cases hr : i = .reset
  · exact ⟨_, _, _, hr ▸ exec_reset s⟩
  cases h : s.st.init with
  | false => exact ⟨s.st, _, _, exec_of_not_init h hr⟩
  | true =>
    cases i with
    | reset => exact absurd rfl hr
    | status => exact ⟨s.st, _, _, exec_status h⟩
    | csumGen data => exact ⟨s.st, _, _, exec_csumGen h data⟩
    | csumCheck data => exact ⟨s.st, _, _, exec_csumCheck h data⟩
    | encode cmd p =>
      by_cases hp : p.length ≤ s.cfg.maxPayload.val
      · exact ⟨s.st, _, _, exec_encode_of_le h cmd hp⟩
      · exact ⟨s.st, _, _, exec_encode_of_gt h cmd (not_le.mp hp)⟩
    | feed b => exact ⟨_, _, _, exec_feed h b⟩
    | feedn data => exact ⟨_, _, _, exec_feedn h data⟩

/-- No operation writes the depth of the response port, so an unbounded one holds nothing (R9, R53). -/
theorem hold_exec_of_unbounded (before : State) (i : Instr) {s : State} (h : s.cfg.outDepth = none) :
    hold before (exec i s) = exec i s := by
  obtain ⟨c, e, d, hx⟩ := exec_eq_respond i s
  rw [hx]
  exact hold_of_fits (fits_of_unbounded (by simpa using h))

end Machine

end Sys2Proof
end

section
/-! The family `00_scope.md`: a step is one accepted operation (R6). -/

namespace Sys2Proof.Machine

/-- Settles O7: the port reads the encoded operation back, and an unbounded response port does not hold it. -/
theorem stepRunsTheAcceptedOperation : Obligations.StepRunsTheAcceptedOperation := by
  intro s a g i rest hg hq hi
  have hstep : step s = hold s (exec i { s.setQueue a rest with grants := g }) :=
    step_of_fetch_instr (fetch_of_encode hg hq hi)
  exact ⟨hstep, fun hd => hstep.trans (hold_exec_of_unbounded s i (by simpa using hd))⟩

end Sys2Proof.Machine
end

section
/-! SUPPORT. What the two kinds of operation can do (R55), and what an operation does to init (R21). -/

namespace Sys2Proof.Machine

/-- STATUS, CSUM_GEN, CSUM_CHECK and ENCODE end in a response and do nothing else (R55). -/
theorem exec_of_reading {i : Instr} (s : State) (hrec : i.isReceive = false) (hi : i ≠ .reset) :
    ∃ e d, exec i s = .next (s.respond e d) := by
  cases h : s.st.init with
  | false => exact ⟨_, _, exec_of_not_init h hi⟩
  | true =>
    cases i with
    | reset => exact absurd rfl hi
    | status => exact ⟨_, _, exec_status h⟩
    | csumGen data => exact ⟨_, _, exec_csumGen h data⟩
    | csumCheck data => exact ⟨_, _, exec_csumCheck h data⟩
    | encode cmd p =>
      by_cases hp : p.length ≤ s.cfg.maxPayload.val
      · exact ⟨_, _, exec_encode_of_le h cmd hp⟩
      · exact ⟨_, _, exec_encode_of_gt h cmd (not_le.mp hp)⟩
    | feed | feedn => cases hrec

/-- FEED and FEEDN receive the bytes that they deliver (R141, R149). -/
theorem exec_of_receive {i : Instr} {s : State} (h : s.st.init = true) (hrec : i.isReceive = true) :
    exec i s = .next (s.finishReceive (receive i.delivers s.st)) := by
  cases i with
  | feed b => exact exec_feed h b
  | feedn data => exact exec_feedn h data
  | reset | status | csumGen | csumCheck | encode => cases hrec

theorem exec_reset_sets_init {s t : State} (h : exec .reset s = .next t) : t.st.init = true := by
  cases h
  rfl

/-- An operation that is not RESET reads, is refused, or receives, and none of these writes init. -/
theorem exec_keeps_init {i : Instr} {s t : State} (hi : i ≠ .reset) (h : exec i s = .next t) :
    t.st.init = s.st.init := by
  cases hrec : i.isReceive with
  | false =>
    obtain ⟨e, d, hx⟩ := exec_of_reading s hrec hi
    cases hx.symm.trans h
    rfl
  | true =>
    cases hinit : s.st.init with
    | false =>
      cases (exec_of_not_init hinit hi).symm.trans h
      exact hinit
    | true =>
      cases (exec_of_receive hinit hrec).symm.trans h
      exact (receive_init _ _).trans hinit

end Sys2Proof.Machine
end

section
/-! The family `10_state.md`: the reset values (R31) and the init flag (R21). -/

namespace Sys2Proof.Machine

/-- Settles O13: the values are those of the definition, and an empty buffer is at rest. -/
theorem resetStateHasTheResetValues : Obligations.ResetStateHasTheResetValues :=
  ⟨rfl, fun _ => restShape_nil⟩

/-- Settles O19: without init every other operation is refused, RESET sets init, and every other operation keeps it. -/
theorem nothingButResetRunsBeforeReset : Obligations.NothingButResetRunsBeforeReset := by
  refine ⟨fun i s h hi => exec_of_not_init h hi, fun i s t h => ?_⟩
  by_cases hi : i = .reset
  · subst hi
    simp [exec_reset_sets_init h]
  · simp [exec_keeps_init hi h, hi]

end Sys2Proof.Machine
end

section
/-! SUPPORT. What an operation reads (R49, R55), how a run goes on, and what one step takes and adds. -/

namespace Sys2Proof.Machine

/-! ### What an operation reads -/

theorem ne_reset_of_isReceive {i : Instr} (h : i.isReceive = true) : i ≠ .reset := by
  rintro rfl
  cases h

/-- CSUM_GEN, CSUM_CHECK and ENCODE only answer, and they read only init and the parameters. -/
theorem exec_transmit_congr {i : Instr} {s s' : State} (hrec : i.isReceive = false) (hreset : i ≠ .reset)
    (hstatus : i ≠ .status) (hinit : s.st.init = s'.st.init) (hcfg : s.cfg = s'.cfg) :
    ∃ e d, exec i s = .next (s.respond e d) ∧ exec i s' = .next (s'.respond e d) := by
  cases h : s.st.init with
  | false => exact ⟨_, _, exec_of_not_init h hreset, exec_of_not_init (hinit ▸ h) hreset⟩
  | true =>
    have h' : s'.st.init = true := hinit ▸ h
    cases i with
    | reset => exact absurd rfl hreset
    | status => exact absurd rfl hstatus
    | csumGen data => exact ⟨_, _, exec_csumGen h data, exec_csumGen h' data⟩
    | csumCheck data => exact ⟨_, _, exec_csumCheck h data, exec_csumCheck h' data⟩
    | encode cmd p =>
      by_cases hp : p.length ≤ s.cfg.maxPayload.val
      · exact ⟨_, _, exec_encode_of_le h cmd hp, exec_encode_of_le h' cmd (hcfg ▸ hp)⟩
      · have hgt := not_le.mp hp
        exact ⟨_, _, exec_encode_of_gt h cmd hgt, exec_encode_of_gt h' cmd (hcfg ▸ hgt)⟩
    | feed | feedn => cases hrec

/-- FEED and FEEDN read only the codec. -/
theorem exec_receive_congr {i : Instr} {s s' : State} (hrec : i.isReceive = true) (hst : s.st = s'.st) :
    ∃ c e d, exec i s = .next ((s.withCodec c).respond e d) ∧ exec i s' = .next ((s'.withCodec c).respond e d) := by
  cases h : s.st.init with
  | false =>
    have hi := ne_reset_of_isReceive hrec
    have hx' : exec i s' = .next ((s'.withCodec s'.st).respond .notInit []) := exec_of_not_init (hst ▸ h) hi
    exact ⟨s.st, _, _, exec_of_not_init h hi, hst ▸ hx'⟩
  | true => exact ⟨_, _, _, exec_of_receive h hrec, hst ▸ exec_of_receive (hst ▸ h) hrec⟩

/-- With STATUS too the reading operations only answer; STATUS reads all of the codec. -/
theorem exec_reading_congr {i : Instr} {s s' : State} (hrec : i.isReceive = false) (hreset : i ≠ .reset)
    (hst : s.st = s'.st) (hcfg : s.cfg = s'.cfg) :
    ∃ e d, exec i s = .next (s.respond e d) ∧ exec i s' = .next (s'.respond e d) := by
  by_cases hstatus : i = .status
  · subst hstatus
    cases h : s.st.init with
    | false => exact ⟨_, _, exec_of_not_init h hreset, exec_of_not_init (hst ▸ h) hreset⟩
    | true => exact ⟨_, _, exec_status h, hst ▸ exec_status (hst ▸ h)⟩
  · exact exec_transmit_congr hrec hreset hstatus (congrArg _ hst) hcfg

/-- Every operation reads only the codec and the parameters. -/
theorem exec_congr (i : Instr) {s s' : State} (hst : s.st = s'.st) (hcfg : s.cfg = s'.cfg) :
    ∃ c e d, exec i s = .next ((s.withCodec c).respond e d) ∧ exec i s' = .next ((s'.withCodec c).respond e d) := by
  by_cases hreset : i = .reset
  · subst hreset
    exact ⟨_, _, _, exec_reset s, hst ▸ exec_reset s'⟩
  cases hrec : i.isReceive with
  | true => exact exec_receive_congr hrec hst
  | false =>
    obtain ⟨e, d, h, h'⟩ := exec_reading_congr hrec hreset hst hcfg
    have hx' : exec i s' = .next ((s'.withCodec s'.st).respond e d) := h'
    exact ⟨s.st, e, d, h, hst ▸ hx'⟩

/-- No operation writes the parameters (R231). -/
theorem exec_keeps_cfg {i : Instr} {s t : State} (h : exec i s = .next t) : t.cfg = s.cfg := by
  obtain ⟨c, e, d, hx⟩ := exec_eq_respond i s
  cases hx.symm.trans h
  rfl

/-! ### Runs -/

theorem runOps_cons_of_next {i : Instr} {s t : State} (is : List Instr) (h : exec i s = .next t) :
    runOps (i :: is) s = runOps is t := by
  simp [runOps, h]

/-- A run reads only the codec and the parameters. -/
theorem runOps_congr (ops : List Instr) {s₁ s₂ : State} (hst : s₁.st = s₂.st) (hcfg : s₁.cfg = s₂.cfg) :
    ∃ t₁ t₂ rs, runOps ops s₁ = .next t₁ ∧ runOps ops s₂ = .next t₂ ∧ t₁.st = t₂.st ∧
      t₁.responses = s₁.responses ++ rs ∧ t₂.responses = s₂.responses ++ rs := by
  induction ops generalizing s₁ s₂ with
  | nil => exact ⟨s₁, s₂, [], rfl, rfl, hst, by simp, by simp⟩
  | cons i ops ih =>
    obtain ⟨c, e, d, h₁, h₂⟩ := exec_congr i hst hcfg
    obtain ⟨t₁, t₂, rs, hr₁, hr₂, hst', hrs₁, hrs₂⟩ :=
      ih (s₁ := (s₁.withCodec c).respond e d) (s₂ := (s₂.withCodec c).respond e d) rfl hcfg
    exact ⟨t₁, t₂, ⟨e, d⟩ :: rs, (runOps_cons_of_next ops h₁).trans hr₁, (runOps_cons_of_next ops h₂).trans hr₂,
      hst', by simp [hrs₁], by simp [hrs₂]⟩

/-! ### What one step takes and adds -/

/-- The codec, the grants and the responses are no part of an agent's queue. -/
theorem queue_answered (s : State) (g : List Agent) (c : Codec) (e : Status) (d : List Byte) (a : Agent) :
    ((State.withCodec { s with grants := g } c).respond e d).queue a = s.queue a := by
  cases a <;> rfl

/-- A step waits, or it takes a transaction off the granted agent's queue with its grant and answers once, legal or not. -/
theorem step_next_waits_or_answers {s s' : State} (h : step s = .next s') :
    s' = s ∨ ∃ a g q c e d, s.grants = a :: g ∧ q <:+ s.queue a ∧
      s' = (State.withCodec { s.setQueue a q with grants := g } c).respond e d := by
  refine (step_next_cases h).imp id fun haccept => ?_
  obtain ⟨dec, s₁, hf, c, e, d, rfl⟩ :
      ∃ dec s₁, fetch s = some (dec, s₁) ∧ ∃ c e d, s' = (s₁.withCodec c).respond e d := by
    rcases haccept with ⟨i, s₁, hf, hx⟩ | ⟨why, s₁, hf, rfl⟩
    · obtain ⟨c, e, d, hx'⟩ := exec_eq_respond i s₁
      cases hx.symm.trans hx'
      exact ⟨_, s₁, hf, c, e, d, rfl⟩
    · exact ⟨_, s₁, hf, s₁.st, .illegalOp, [], rfl⟩
  obtain ⟨a, g, t, q, hg, -, hq, -, rfl⟩ := fetch_eq_some hf
  exact ⟨a, g, q, c, e, d, hg, ⟨t.bytes, hq.symm⟩, rfl⟩

/-- Each unread response takes its status byte and its data (R75, R9). -/
theorem pendingBytes_eq (s : State) : s.pendingBytes = (s.responses.map fun r => r.rdata.length + 1).sum := rfl

/-! ### What a scan cuts the stream into -/

theorem Scans.partition {buf rest : List Byte} {evs : List ScanEvent} (h : Scans buf evs rest) :
    buf = evs.flatMap ScanEvent.bytes ++ rest := by
  induction h with
  | rest h => rfl
  | zero h ih | mismatch _ _ _ h ih => exact congrArg (List.cons _) ih
  | @accept buf rest evs f valid h ih =>
    rw [ih, List.flatMap_cons, List.append_assoc]
    rfl

theorem Scans.accepted_valid {buf rest : List Byte} {evs : List ScanEvent} (h : Scans buf evs rest) :
    ∀ f ∈ accepted evs, f.Valid := by
  induction h with
  | rest h => simp
  | zero h ih | mismatch _ _ _ h ih => simpa using ih
  | accept valid h ih => simpa using ⟨valid, ih⟩

end Sys2Proof.Machine
end

section
/-! The family `20_memory.md`: the agents' queues and the response port (R48, R53), what an operation writes and reads
(R49, R55), what RESET forgets (R51), and the buffer as an ordered stream (R50). -/

namespace Sys2Proof.Machine

/-- Settles O11: a waiting step changes nothing, and an answering one takes the front of one queue and one grant. -/
theorem stepKeepsSubmissionAndResponseOrder : Obligations.StepKeepsSubmissionAndResponseOrder := by
  intro s s' h
  obtain rfl | ⟨a, g, q, c, e, d, hg, hq, rfl⟩ := step_next_waits_or_answers h
  · exact ⟨fun _ => List.suffix_rfl, fun _ _ _ _ _ => rfl, List.suffix_rfl, .inl rfl, rfl⟩
  · refine ⟨fun a' => ?_, fun b g' hg' a' ha' => ?_, ?_, .inr ⟨⟨e, d⟩, by simp⟩, by simp⟩
    · rw [queue_answered]
      by_cases ha : a' = a
      · subst ha
        simpa using hq
      · rw [queue_setQueue_other ha]
    · cases hg.symm.trans hg'
      rw [queue_answered, queue_setQueue_other ha']
    · simp [hg]

/-- Settles O18: RESET gives both machines one codec, and a run reads nothing else that they hold. -/
theorem resetForgetsTheStream : Obligations.ResetForgetsTheStream := by
  intro s₁ s₂ ops hcfg
  obtain ⟨t₁, t₂, rs, h₁, h₂, hst, hrs₁, hrs₂⟩ :=
    runOps_congr ops (s₁ := (s₁.withCodec s₁.st.reset).respond .ok [])
      (s₂ := (s₂.withCodec s₂.st.reset).respond .ok []) rfl hcfg
  exact ⟨t₁, t₂, ⟨.ok, []⟩ :: rs, (runOps_cons_of_next ops (exec_reset s₁)).trans h₁,
    (runOps_cons_of_next ops (exec_reset s₂)).trans h₂, hst, by simp [hrs₁], by simp [hrs₂]⟩

/-- Settles O22: the new codec is one for both machines, and its init is the old one. -/
theorem receivingWritesOnlyBufferAndCounter : Obligations.ReceivingWritesOnlyBufferAndCounter := by
  intro i s s' hrec hst
  obtain ⟨c, e, d, h, h'⟩ := exec_receive_congr hrec hst
  have hinit : c.init = s.st.init := exec_keeps_init (ne_reset_of_isReceive hrec) h
  have hc : c = ⟨s.st.init, c.buf, c.malf⟩ := by rw [← hinit]
  exact ⟨c.buf, c.malf, ⟨e, d⟩, hc ▸ h, hst ▸ hc ▸ h'⟩

/-- Settles O23: the receive operation leaves what the transmit operation reads, init and the parameters, and the transmit
operation leaves the codec. -/
theorem transmitAndReceiveCommute : Obligations.TransmitAndReceiveCommute := by
  intro tx rx s htx hreset hstatus hrx
  have hi := ne_reset_of_isReceive hrx
  obtain ⟨t, ht⟩ : ∃ t, exec rx s = .next t := by
    obtain ⟨c, e, d, h⟩ := exec_eq_respond rx s
    exact ⟨_, h⟩
  obtain ⟨e₁, d₁, h₁, h₁'⟩ :=
    exec_transmit_congr htx hreset hstatus (exec_keeps_init hi ht).symm (exec_keeps_cfg ht).symm
  obtain ⟨c, e₂, d₂, h₂, h₂'⟩ := exec_receive_congr (s := s) (s' := s.respond e₁ d₁) hrx rfl
  cases ht.symm.trans h₂
  refine ⟨c, ⟨e₁, d₁⟩, ⟨e₂, d₂⟩, ?_, ?_⟩
  · rw [runOps_cons_of_next _ h₁, runOps_cons_of_next _ h₂']
    simp [runOps, State.respond, State.withCodec]
  · rw [runOps_cons_of_next _ h₂, runOps_cons_of_next _ h₁']
    simp [runOps, State.respond, State.withCodec]

/-- Settles O36, by the rules of the scan. -/
theorem scanPartitionsTheStream : Obligations.ScanPartitionsTheStream :=
  fun _ _ _ h => ⟨h.partition, h.rest_atRest, h.accepted_valid⟩

/-- Settles O10: the operation keeps the depth, so the hold compares the response bytes after it with `d`. -/
theorem fullResponsePortHoldsTheOperation : Obligations.FullResponsePortHoldsTheOperation := by
  intro s after a g i rest d hg hq hi hd hx
  have hstep : step s = hold s (.next after) := by
    rw [step_of_fetch_instr (fetch_of_encode hg hq hi), hx]
  have hfits := fits_of_depth (s := after) (d := d) (by simpa [exec_keeps_cfg hx] using hd)
  rw [pendingBytes_eq] at hfits
  refine ⟨fun hlt => ?_, fun hle => ?_⟩
  · exact hstep.trans (hold_of_not_fits (Bool.eq_false_iff.2 fun hf => absurd (hfits.1 hf) (not_le.2 hlt)))
  · exact hstep.trans (hold_of_fits (hfits.2 hle))

/-- Settles O12: submitting is a write to one agent's queue; the other actions are their definitions. -/
theorem outsideActionsTouchOnlyTheirPort : Obligations.OutsideActionsTouchOnlyTheirPort := by
  refine ⟨fun s a bs => ?_, fun _ _ => rfl, fun s h => ?_, fun s r rs h => ?_, fun _ => rfl⟩
  · exact ⟨queue_setQueue_same .., fun a' ha' => queue_setQueue_other ha' .., setQueue_st .., setQueue_grants ..,
      setQueue_responses .., setQueue_cfg ..⟩
  · simp [State.consume, h]
  · simp [State.consume, h]

/-- Settles O21: a reading operation ends in a response, and two machines with the same init and parameters get the same. -/
theorem readingOperationsWriteNothing : Obligations.ReadingOperationsWriteNothing := by
  refine ⟨fun i s hrec hreset => ?_, fun i s s' hrec hreset hstatus hinit hcfg => ?_⟩
  · obtain ⟨e, d, h⟩ := exec_of_reading s hrec hreset
    exact ⟨⟨e, d⟩, h⟩
  · obtain ⟨e, d, h, h'⟩ := exec_transmit_congr hrec hreset hstatus hinit hcfg
    exact ⟨⟨e, d⟩, h, h'⟩

end Sys2Proof.Machine
end

section
/-! SUPPORT. What the port takes off its input (R70), the fields that request an operation (R71, R72, R79), and the header that
the opcode table's masks and patterns are compared with. -/

namespace Sys2Proof

/-! ### Framing -/

theorem takeTransaction_of_short {bs : List Byte} (h : bs.length < 3) : takeTransaction bs = none := by
  match bs, h with
  | [], _ | [_], _ | [_, _], _ => rfl
  | _ :: _ :: _ :: _, h => exact absurd h (by simp)

theorem takeTransaction_of_incomplete (op a : Byte) {b : Byte} {data : List Byte} (h : data.length < b.toNat) :
    takeTransaction (op :: a :: b :: data) = none :=
  if_neg (not_le.2 h)

/-! ### The operation that a transaction requests -/

/-- The fields that request an operation: OP, and for each of A, B and DATA that it has, the operand or the 0 that it must be
(R71, R72). B is left out where it only counts DATA. -/
def Instr.RequestedBy (t : Transaction) : Instr → Prop
  | .reset => t.op = 0x01#8 ∧ t.a = 0#8 ∧ t.b = 0#8
  | .status => t.op = 0x02#8 ∧ t.a = 0#8 ∧ t.b = 0#8
  | .csumGen data => t.op = 0x10#8 ∧ t.a = 0#8 ∧ t.data = data
  | .csumCheck data => t.op = 0x11#8 ∧ t.a = 0#8 ∧ t.data = data
  | .encode cmd payload => t.op = 0x20#8 ∧ t.a = cmd ∧ t.data = payload
  | .feed b => t.op = 0x30#8 ∧ t.a = b ∧ t.b = 0#8
  | .feedn data => t.op = 0x31#8 ∧ t.a = 0#8 ∧ t.data = data

theorem exists_legalWhen_eq_illegal_iff {zero : Bool} {i : Instr} {t : Transaction} :
    (∃ why, legalWhen zero i t = .illegal why) ↔ zero = false := by
  cases zero <;> simp [legalWhen]

theorem requestedBy_of_legalWhen {zero : Bool} {i j : Instr} {t : Transaction} (h : legalWhen zero i t = .instr j)
    (hi : zero = true → i.RequestedBy t) : j.RequestedBy t := by
  cases zero with
  | false => cases h
  | true =>
    cases h
    exact hi rfl

theorem requestedBy_of_decode {t : Transaction} {i : Instr} (h : decode t = .instr i) : i.RequestedBy t := by
  unfold decode at h
  split_ifs at h with hop hop hop hop hop hop hop
  · exact requestedBy_of_legalWhen h fun hz => ⟨hop, by simpa using hz⟩
  · exact requestedBy_of_legalWhen h fun hz => ⟨hop, by simpa using hz⟩
  · exact requestedBy_of_legalWhen h fun hz => ⟨hop, of_decide_eq_true hz, rfl⟩
  · exact requestedBy_of_legalWhen h fun hz => ⟨hop, of_decide_eq_true hz, rfl⟩
  · cases h
    exact ⟨hop, rfl, rfl⟩
  · exact requestedBy_of_legalWhen h fun hz => ⟨hop, rfl, of_decide_eq_true hz⟩
  · exact requestedBy_of_legalWhen h fun hz => ⟨hop, of_decide_eq_true hz, rfl⟩

theorem decode_of_requestedBy {t : Transaction} {i : Instr} (h : i.RequestedBy t) : decode t = .instr i := by
  obtain ⟨op, a, b, data⟩ := t
  cases i <;> obtain ⟨rfl, rfl, rfl⟩ := h <;> rfl

theorem decode_eq_instr_iff {t : Transaction} {i : Instr} : decode t = .instr i ↔ i.RequestedBy t :=
  ⟨requestedBy_of_decode, decode_of_requestedBy⟩

/-- A transaction that carries B data bytes and decodes to an operation is the encoder's (R72). -/
theorem eq_transaction_of_requestedBy {t : Transaction} {i : Instr} (ht : t.WellFormed) (h : i.RequestedBy t) :
    t = i.transaction := by
  obtain ⟨op, a, b, data⟩ := t
  have hb : BitVec.ofNat 8 data.length = b := (congrArg _ ht).trans (by simp)
  cases i with
  | reset | status | feed =>
    obtain ⟨rfl, rfl, rfl⟩ := h
    cases List.length_eq_zero_iff.1 ht
    rfl
  | csumGen | csumCheck | encode | feedn =>
    obtain ⟨rfl, rfl, rfl⟩ := h
    rw [← hb]
    rfl

@[simp] theorem transaction_data (i : Instr) : i.transaction.data = i.data := by
  cases i <;> rfl

theorem wellFormed_of_transaction {i : Instr} (h : i.transaction.WellFormed) : i.WellFormed := by
  have hlen : i.data.length = i.transaction.b.toNat := transaction_data i ▸ h
  exact hlen.le.trans (Nat.le_of_lt_succ i.transaction.b.isLt)

/-! ### The header -/

theorem header_toNat (t : Transaction) :
    t.header.toNat = t.op.toNat * 2 ^ 16 + t.a.toNat * 2 ^ 8 + t.b.toNat := by
  rw [Transaction.header, BitVec.toNat_ofNat, Nat.mod_eq_of_lt]
  omega

theorem header_eq_append (t : Transaction) : t.header = t.op ++ (t.a ++ t.b) := by
  apply BitVec.eq_of_toNat_eq
  rw [header_toNat, BitVec.toNat_append, BitVec.toNat_append, ← Nat.shiftLeft_add_eq_or_of_lt t.b.isLt,
    ← Nat.shiftLeft_add_eq_or_of_lt] <;> omega

theorem bitVec_append_inj {m n : Nat} {x x' : BitVec m} {y y' : BitVec n} :
    x ++ y = x' ++ y' ↔ x = x' ∧ y = y' := by
  refine ⟨fun h => ⟨?_, ?_⟩, fun ⟨hx, hy⟩ => hx ▸ hy ▸ rfl⟩
  · simpa only [BitVec.extractLsb'_append_eq_left] using congrArg (BitVec.extractLsb' n m) h
  · simpa only [BitVec.extractLsb'_append_eq_right] using congrArg (BitVec.extractLsb' 0 n) h

/-- A row accepts a header byte by byte. -/
theorem accepts_header_iff (mnemonic : String) (po pa pb mo ma mb : Byte) (t : Transaction) :
    (OpcodeRow.mk mnemonic (po ++ (pa ++ pb)) (mo ++ (ma ++ mb))).accepts t.header = true ↔
      t.op &&& mo = po ∧ t.a &&& ma = pa ∧ t.b &&& mb = pb := by
  rw [OpcodeRow.accepts, beq_iff_eq, header_eq_append, BitVec.and_append, BitVec.and_append, bitVec_append_inj,
    bitVec_append_inj]

@[simp] theorem byte_and_full (x : Byte) : x &&& 0xFF#8 = x := BitVec.and_allOnes

/-- The rows of R71 by name, as `Instr.RequestedBy` gives them. -/
theorem exists_requestedBy_iff (t : Transaction) (name : String) :
    (∃ i : Instr, i.RequestedBy t ∧ i.mnemonic = name) ↔
      ("RESET" = name ∧ t.op = 0x01#8 ∧ t.a = 0#8 ∧ t.b = 0#8) ∨
      ("STATUS" = name ∧ t.op = 0x02#8 ∧ t.a = 0#8 ∧ t.b = 0#8) ∨
      ("CSUM_GEN" = name ∧ t.op = 0x10#8 ∧ t.a = 0#8) ∨
      ("CSUM_CHECK" = name ∧ t.op = 0x11#8 ∧ t.a = 0#8) ∨
      ("ENCODE" = name ∧ t.op = 0x20#8) ∨
      ("FEED" = name ∧ t.op = 0x30#8 ∧ t.b = 0#8) ∨
      ("FEEDN" = name ∧ t.op = 0x31#8 ∧ t.a = 0#8) := by
  constructor
  · rintro ⟨i, hi, rfl⟩
    cases i <;> obtain ⟨hop, h, h'⟩ := hi <;> simp [Instr.mnemonic, hop, h, h']
  · rintro (⟨hn, hop, h, h'⟩ | ⟨hn, hop, h, h'⟩ | ⟨hn, hop, h⟩ | ⟨hn, hop, h⟩ | ⟨hn, hop⟩ | ⟨hn, hop, h⟩ | ⟨hn, hop, h⟩)
    · exact ⟨.reset, ⟨hop, h, h'⟩, hn⟩
    · exact ⟨.status, ⟨hop, h, h'⟩, hn⟩
    · exact ⟨.csumGen _, ⟨hop, h, rfl⟩, hn⟩
    · exact ⟨.csumCheck _, ⟨hop, h, rfl⟩, hn⟩
    · exact ⟨.encode _ _, ⟨hop, rfl, rfl⟩, hn⟩
    · exact ⟨.feed _, ⟨hop, rfl, h⟩, hn⟩
    · exact ⟨.feedn _, ⟨hop, h, rfl⟩, hn⟩

/-- A row of the opcode table accepts the header exactly of the transactions that request an operation of its mnemonic. -/
theorem accepts_iff_exists_requestedBy {r : OpcodeRow} (hr : r ∈ opcodeTable) (t : Transaction) :
    r.accepts t.header = true ↔ ∃ i : Instr, i.RequestedBy t ∧ i.mnemonic = r.mnemonic := by
  rw [exists_requestedBy_iff]
  simp only [opcodeTable, List.mem_cons, List.not_mem_nil, or_false] at hr
  rcases hr with rfl | rfl | rfl | rfl | rfl | rfl | rfl
  · exact (accepts_header_iff _ 0x01#8 0#8 0#8 0xFF#8 0xFF#8 0xFF#8 t).trans (by simp)
  · exact (accepts_header_iff _ 0x02#8 0#8 0#8 0xFF#8 0xFF#8 0xFF#8 t).trans (by simp)
  · exact (accepts_header_iff _ 0x10#8 0#8 0#8 0xFF#8 0xFF#8 0x00#8 t).trans (by simp)
  · exact (accepts_header_iff _ 0x11#8 0#8 0#8 0xFF#8 0xFF#8 0x00#8 t).trans (by simp)
  · exact (accepts_header_iff _ 0x20#8 0#8 0#8 0xFF#8 0x00#8 0x00#8 t).trans (by simp)
  · exact (accepts_header_iff _ 0x30#8 0#8 0#8 0xFF#8 0x00#8 0xFF#8 t).trans (by simp)
  · exact (accepts_header_iff _ 0x31#8 0#8 0#8 0xFF#8 0xFF#8 0x00#8 t).trans (by simp)

theorem exists_row_of_mnemonic (i : Instr) : ∃ r ∈ opcodeTable, r.mnemonic = i.mnemonic := by
  cases i <;> simp [opcodeTable, Instr.mnemonic]

end Sys2Proof

namespace Sys2Proof.Machine

/-! ### A step without an operation to run -/

theorem step_of_fetch_none {s : State} (h : fetch s = none) : step s = .next s := by
  simp [step, h]

theorem step_of_fetch_illegal {s s' : State} {why : Illegal} (h : fetch s = some (.illegal why, s')) :
    step s = hold s (.next (s'.respond .illegalOp [])) := by
  simp [step, h, raiseIllegal]

/-! ### The response of an operation -/

/-- An operation answers OK, or it is refused and only answers: with NOT_INIT before any RESET, or with INVALID_ARGUMENT as an
ENCODE of more than MAX_PAYLOAD bytes (R21, R120, R201). -/
theorem exec_ok_or_refused (i : Instr) (s : State) :
    (∃ c d, exec i s = .next ((s.withCodec c).respond .ok d)) ∨
    exec i s = .next (s.respond .notInit []) ∨
    (∃ cmd p, i = .encode cmd p ∧ s.cfg.maxPayload.val < p.length ∧
      exec i s = .next (s.respond .invalidArgument [])) := by
  by_cases hi : i = .reset
  · exact .inl ⟨_, _, hi ▸ exec_reset s⟩
  cases h : s.st.init with
  | false => exact .inr (.inl (exec_of_not_init h hi))
  | true =>
    cases i with
    | reset => exact absurd rfl hi
    | status => exact .inl ⟨s.st, _, exec_status h⟩
    | csumGen data => exact .inl ⟨s.st, _, exec_csumGen h data⟩
    | csumCheck data => exact .inl ⟨s.st, _, exec_csumCheck h data⟩
    | encode cmd p =>
      by_cases hp : p.length ≤ s.cfg.maxPayload.val
      · exact .inl ⟨s.st, _, exec_encode_of_le h cmd hp⟩
      · have hgt := not_le.mp hp
        exact .inr (.inr ⟨cmd, p, rfl, hgt, exec_encode_of_gt h cmd hgt⟩)
    | feed | feedn => exact .inl ⟨_, _, exec_of_receive h rfl⟩

/-! ### FEEDS (R78) -/

@[simp] theorem stream_append (xs ys : List Instr) : stream (xs ++ ys) = stream xs ++ stream ys :=
  List.flatMap_append

@[simp] theorem stream_feedn (data : List Byte) : stream [.feedn data] = data := by
  simp [stream, Instr.delivers]

/-- Consecutive chunks of one size deliver the bytes from the front. -/
theorem stream_chunks (size n : Nat) (bytes : List Byte) :
    stream ((List.range n).map fun k => .feedn ((bytes.drop (size * k)).take size)) = bytes.take (size * n) := by
  induction n with
  | zero => rfl
  | succ n ih =>
    rw [List.range_succ, List.map_append, stream_append, ih, List.map_singleton, stream_feedn, Nat.mul_succ,
      List.take_add]

theorem stream_feeds (bytes : List Byte) : stream (feeds bytes) = bytes := by
  rw [feeds, stream_append, stream_chunks]
  split_ifs with h
  · have hall : bytes.length ≤ 255 * (bytes.length / 255) := by omega
    exact (List.append_nil _).trans (List.take_of_length_le hall)
  · rw [stream_feedn, List.take_append_drop]

theorem length_feeds (bytes : List Byte) : (feeds bytes).length = (bytes.length + 254) / 255 := by
  rw [feeds, List.length_append, List.length_map, List.length_range]
  split_ifs with h <;> simp only [List.length_nil, List.length_singleton] <;> omega

theorem exists_feedn_of_mem_feeds {bytes : List Byte} {i : Instr} (h : i ∈ feeds bytes) :
    ∃ data, i = .feedn data ∧ 0 < data.length ∧ data.length ≤ 255 := by
  rcases List.mem_append.1 h with hchunk | hrest
  · obtain ⟨k, hk, rfl⟩ := List.mem_map.1 hchunk
    have hk' := List.mem_range.1 hk
    refine ⟨_, rfl, ?_⟩
    rw [List.length_take, List.length_drop]
    omega
  · split_ifs at hrest with h0
    · cases hrest
    · cases List.mem_singleton.1 hrest
      refine ⟨_, rfl, ?_⟩
      rw [List.length_drop]
      omega

end Sys2Proof.Machine
end

section
/-! The family `30_encoding.md`: framing (R70), decoding and encoding (R71, R72, R79), illegal transactions (R73, R74), the one
response of an operation (R75), and FEEDS (R78). -/

namespace Sys2Proof.Machine

/-- Settles O2: the port reads back the transaction that the encoder wrote. -/
theorem decodingAnEncodingGivesTheOperation : Obligations.DecodingAnEncodingGivesTheOperation :=
  fun i rest hi => ⟨i.transaction, takeTransaction_encode hi rest, decode_transaction i⟩

/-- Settles O3: the fields that request an operation, with B as the number of data bytes, are those that the encoder writes. -/
theorem encodingADecodingGivesTheBytes : Obligations.EncodingADecodingGivesTheBytes := by
  intro bs rest t i hbs hi
  obtain ⟨ht, rfl⟩ := takeTransaction_eq_some hbs
  cases eq_transaction_of_requestedBy ht (decode_eq_instr_iff.1 hi)
  exact ⟨wellFormed_of_transaction ht, rfl⟩

/-- Settles O5: a row accepts the headers that request an operation of its mnemonic, and each operation's mnemonic has a row. -/
theorem decodingAgreesWithTheOpcodeTable : Obligations.DecodingAgreesWithTheOpcodeTable := by
  refine ⟨fun t => ⟨fun ⟨i, h⟩ => ?_, fun ⟨r, hr, h⟩ => ?_⟩, fun t i h r hr => ?_⟩
  · obtain ⟨r, hr, hname⟩ := exists_row_of_mnemonic i
    exact ⟨r, hr, (accepts_iff_exists_requestedBy hr t).2 ⟨i, decode_eq_instr_iff.1 h, hname.symm⟩⟩
  · obtain ⟨i, hi, -⟩ := (accepts_iff_exists_requestedBy hr t).1 h
    exact ⟨i, decode_eq_instr_iff.2 hi⟩
  · refine (accepts_iff_exists_requestedBy hr t).trans ⟨fun ⟨j, hj, hname⟩ => ?_, fun hname => ?_⟩
    · cases h.symm.trans (decode_eq_instr_iff.2 hj)
      exact hname.symm
    · exact ⟨i, decode_eq_instr_iff.1 h, hname.symm⟩

/-- Settles O50: the whole chunks take the bytes up to the last multiple of 255, and the rest follows if there is any. -/
theorem feedsDeliversItsBytesInOrder : Obligations.FeedsDeliversItsBytesInOrder := by
  refine fun bytes => ⟨stream_feeds bytes, length_feeds bytes, fun i hi => ?_⟩
  obtain ⟨data, rfl, hpos, hle⟩ := exists_feedn_of_mem_feeds hi
  exact ⟨hle, data, rfl, List.ne_nil_of_length_pos hpos⟩

/-- Settles O1: framing reads B and counts bytes; the header's three bytes fit its 24 bits. -/
theorem transactionsAreFramedByTheirLengthByte : Obligations.TransactionsAreFramedByTheirLengthByte :=
  ⟨fun op a b data rest h => takeTransaction_bytes (t := ⟨op, a, b, data⟩) h rest,
    fun op a _ _ h => takeTransaction_of_incomplete op a h, fun _ h => takeTransaction_of_short h, header_toNat⟩

/-- Settles O4, by the branches of the decoder: each legal OP fails only by its own must-be-0 fields. -/
theorem illegalExactlyForReservedOpcodesAndFields : Obligations.IllegalExactlyForReservedOpcodesAndFields := by
  intro t
  unfold decode
  split_ifs with hop hop hop hop hop hop hop
  case neg => simp [*]
  all_goals simp [exists_legalWhen_eq_illegal_iff, hop, imp_iff_not_or]

/-- Settles O6, by running the decoder on each word. -/
theorem specWordsDecodeToTheirOperations : Obligations.SpecWordsDecodeToTheirOperations := by
  unfold Obligations.SpecWordsDecodeToTheirOperations
  decide

/-- Settles O8: the port takes the transaction whatever it decodes to, and an unbounded response port does not hold the
answer. -/
theorem illegalTransactionsAnswerIllegalOp : Obligations.IllegalTransactionsAnswerIllegalOp := by
  intro s a g t rest hg ht hq hd hreserved
  obtain ⟨why, hwhy⟩ := (illegalExactlyForReservedOpcodesAndFields t).2 hreserved
  have htake : takeTransaction (s.queue a) = some (t, rest) := hq ▸ takeTransaction_bytes ht rest
  have hfetch := fetch_of_complete hg htake
  rw [hwhy] at hfetch
  rw [step_of_fetch_illegal hfetch, hold_of_fits (fits_of_unbounded (by simpa using hd))]
  simp [State.respond]

/-- Settles O9: nothing is fetched without a grant or without a complete transaction. -/
theorem stepWaitsForACompleteTransaction : Obligations.StepWaitsForACompleteTransaction := by
  refine ⟨fun s h => step_of_fetch_none (fetch_none_of_no_grant h), fun s a g hg hwait => ?_⟩
  refine step_of_fetch_none (fetch_none_of_incomplete hg ?_)
  obtain hshort | ⟨op, a', b, data, hq, hlt⟩ := hwait
  · exact takeTransaction_of_short hshort
  · exact hq ▸ takeTransaction_of_incomplete op a' hlt

/-- Settles O20: an operation that does not answer OK is refused, and a refusal is a response and nothing else. -/
theorem everyOperationAnswersOnce : Obligations.EveryOperationAnswersOnce := by
  intro i s
  obtain ⟨c, d, h⟩ | h | ⟨cmd, p, hi, hp, h⟩ := exec_ok_or_refused i s
  · exact ⟨c, ⟨.ok, d⟩, h, by simp⟩
  · exact ⟨s.st, ⟨.notInit, []⟩, h, by simp⟩
  · exact ⟨s.st, ⟨.invalidArgument, []⟩, h, fun _ => ⟨rfl, rfl⟩, nofun, fun _ => ⟨cmd, p, hi, hp⟩⟩

end Sys2Proof.Machine
end

section
/-! SUPPORT. The sum of a sequence whose bytes are permuted or of which one is replaced, the byte that validates a prefix (R105),
and what CSUM_GEN and CSUM_CHECK answer in terms of the sum (R103, R104). -/

namespace Sys2Proof

/-! ### The must-be-0 fields (R74) -/

theorem legalWhen_of_ne {x : Byte} (h : x ≠ 0#8) (i : Instr) (t : Transaction) :
    legalWhen (x = 0#8) i t = .illegal (.reservedField t.op t.a t.b) :=
  if_neg (by simpa using h)

theorem decode_csumGen_reserved {a : Byte} (h : a ≠ 0#8) (b : Byte) (data : List Byte) :
    decode ⟨0x10#8, a, b, data⟩ = .illegal (.reservedField 0x10#8 a b) :=
  legalWhen_of_ne h (.csumGen data) ⟨0x10#8, a, b, data⟩

theorem decode_csumCheck_reserved {a : Byte} (h : a ≠ 0#8) (b : Byte) (data : List Byte) :
    decode ⟨0x11#8, a, b, data⟩ = .illegal (.reservedField 0x11#8 a b) :=
  legalWhen_of_ne h (.csumCheck data) ⟨0x11#8, a, b, data⟩

namespace Machine

/-! ### Sums -/

theorem sumBytes_perm {w w' : List Byte} (h : w.Perm w') : sumBytes w = sumBytes w' :=
  (h.map BitVec.toNat).sum_eq

/-- Replacing a byte trades its value for the new one's. -/
theorem sumBytes_set {w : List Byte} {i : Nat} {b : Byte} (h : w[i]? = some b) (b' : Byte) :
    sumBytes (w.set i b') + b.toNat = sumBytes w + b'.toNat := by
  induction w generalizing i with
  | nil => simp at h
  | cons x w ih =>
    cases i with
    | zero =>
      obtain rfl : x = b := by simpa using h
      simp only [List.set_cons_zero, sumBytes_cons]
      omega
    | succ i =>
      have := ih (by simpa using h)
      simp only [List.set_cons_succ, sumBytes_cons]
      omega

/-- Two different bytes differ by less than 256, so the sums with one and with the other are not both 0 modulo 256. -/
theorem sumBytes_set_mod_ne_zero {w : List Byte} {i : Nat} {b b' : Byte} (hi : w[i]? = some b) (hne : b' ≠ b)
    (hw : sumBytes w % 256 = 0) : sumBytes (w.set i b') % 256 ≠ 0 := by
  have hset := sumBytes_set hi b'
  have hne' : b'.toNat ≠ b.toNat := mt BitVec.eq_of_toNat_eq hne
  have hb := b.isLt
  have hb' := b'.isLt
  omega

theorem flipBit_ne (b : Byte) {k : Nat} (hk : k < 8) : b ^^^ (1#8 <<< k) ≠ b := by
  have hbit : ∀ k < 8, 1#8 <<< k ≠ 0#8 := by decide
  simpa using hbit k hk

/-! ### The checksum byte -/

/-- R105: one byte makes the sum behind a prefix 0, the prefix's checksum. -/
theorem eq_csum_iff (c : Byte) (s : List Byte) : c = csum s ↔ sumBytes (s ++ [c]) % 256 = 0 := by
  have hc := c.isLt
  rw [← BitVec.toNat_inj, csum_toNat, sumBytes_append, sumBytes_cons, sumBytes_nil]
  omega

/-- The negated checksum byte stands for the sum of the bytes it was generated from. -/
theorem toNat_negated_csum (s : List Byte) :
    (BitVec.ofNat 8 ((256 - (csum s).toNat) % 256)).toNat = sumBytes s % 256 := by
  rw [BitVec.toNat_ofNat, csum_toNat]
  omega

/-- R104: the negated checksum of the first part takes its place in the sum of the whole. -/
theorem sumBytes_append_negated_csum (x y : List Byte) :
    sumBytes (y ++ [BitVec.ofNat 8 ((256 - (csum x).toNat) % 256)]) % 256 = sumBytes (x ++ y) % 256 := by
  rw [sumBytes_append, sumBytes_append, sumBytes_cons, toNat_negated_csum, sumBytes_nil]
  omega

/-! ### What the two operations answer -/

theorem exec_csumCheck_sum {s : State} (h : s.st.init = true) (data : List Byte) :
    exec (.csumCheck data) s =
      .next (s.respond .ok [if sumBytes data % 256 = 0 then 0x01#8 else 0x00#8]) := by
  simp only [exec_csumCheck h, valid8_iff]

theorem exec_csumCheck_eq_one_iff {s : State} (h : s.st.init = true) (data : List Byte) :
    exec (.csumCheck data) s = .next (s.respond .ok [0x01#8]) ↔ sumBytes data % 256 = 0 := by
  rw [exec_csumCheck_sum h]
  split_ifs with hsum <;> simp [State.respond, hsum]

/-- CSUM_GEN and CSUM_CHECK read nothing of their bytes but the sum. -/
theorem exec_checksum_congr (s : State) {w w' : List Byte} (hsum : sumBytes w = sumBytes w') :
    exec (.csumGen w) s = exec (.csumGen w') s ∧ exec (.csumCheck w) s = exec (.csumCheck w') s := by
  cases h : s.st.init with
  | false => simp [exec_of_not_init h]
  | true =>
    have hcsum : csum w = csum w' := BitVec.eq_of_toNat_eq (by rw [csum_toNat, csum_toNat, hsum])
    exact ⟨by rw [exec_csumGen h, exec_csumGen h, hcsum], by rw [exec_csumCheck_sum h, exec_csumCheck_sum h, hsum]⟩

end Machine

end Sys2Proof
end

section
/-! The family `40_checksum.md`: CSUM_GEN (R103), CSUM_CHECK (R104), and what the sum validates and detects
(R105, R106, R107). -/

namespace Sys2Proof.Machine

/-- Settles O27: the operation answers whether the sum is 0, and a negated checksum stands for the part it was generated
from. -/
theorem csumCheckAnswersTheSum : Obligations.CsumCheckAnswersTheSum := by
  refine ⟨fun s data h => exec_csumCheck_sum h data, fun s data h => exec_of_not_init h nofun, fun _ _ => rfl,
    fun a b data ha => decode_csumCheck_reserved ha b data, fun s x y h => ⟨csum x, exec_csumGen h x, ?_⟩⟩
  rw [exec_csumCheck_sum h, sumBytes_append_negated_csum]
  rfl

/-- Settles O28: the byte is the prefix's checksum. -/
theorem exactlyOneTrailerValidates : Obligations.ExactlyOneTrailerValidates := by
  refine fun s data h => ⟨csum data, exec_csumGen h data, fun c => ?_⟩
  simp only [eq_csum_iff]
  exact exec_csumCheck_sum h (data ++ [c])

/-- Settles O29: the flipped byte is another byte, and replacing one byte by another changes the sum modulo 256. -/
theorem singleBitFlipsAreDetected : Obligations.SingleBitFlipsAreDetected := by
  intro s w i k b h hk hi hpass
  have hsum : sumBytes w % 256 = 0 := (exec_csumCheck_eq_one_iff h w).1 hpass
  have hflip := sumBytes_set_mod_ne_zero hi (flipBit_ne b hk) hsum
  rw [exec_csumCheck_sum h, if_neg hflip]
  rfl

/-- Settles O30: both operations read only the sum, which no permutation changes. -/
theorem checksumsIgnoreByteOrder : Obligations.ChecksumsIgnoreByteOrder :=
  fun s _ _ h => exec_checksum_congr s (sumBytes_perm h)

/-- Settles O26: the checksum is the negated sum, and A is the one field that must be 0. -/
theorem csumGenAnswersTheChecksum : Obligations.CsumGenAnswersTheChecksum :=
  ⟨fun _ data h => exec_csumGen h data, fun _ _ h => exec_of_not_init h nofun, fun _ _ => rfl,
    fun _ b data ha => decode_csumGen_reserved ha b data⟩

end Sys2Proof.Machine
end

section
/-! SUPPORT. The frame that ENCODE builds (R120), the reading back of a frame list (R76), and what receiving does while a frame
arrives and when its last byte does (R142 cases c and d). -/

namespace Sys2Proof.Machine

/-! ### The frame that ENCODE builds -/

/-- The record of ENCODE's output (R61, R62, R69). -/
def encodedFrame (cmd : Byte) (p : List Byte) : Frame :=
  { len := BitVec.ofNat 8 (p.length + 1)
    cmd := cmd
    payload := p
    csum := csum ([BitVec.ofNat 8 (p.length + 1), cmd] ++ p) }

theorem buildFrame_eq_raw (cmd : Byte) (p : List Byte) : buildFrame cmd p = (encodedFrame cmd p).raw := rfl

theorem encodedFrame_len_toNat (cmd : Byte) {p : List Byte} (hp : p.length ≤ 254) :
    (encodedFrame cmd p).len.toNat = p.length + 1 := by
  rw [encodedFrame, BitVec.toNat_ofNat]
  omega

theorem encodedFrame_valid (cmd : Byte) {p : List Byte} (hp : p.length ≤ 254) : (encodedFrame cmd p).Valid := by
  have hlen := encodedFrame_len_toNat cmd hp
  refine ⟨fun h0 => ?_, hlen, (eq_csum_iff _ _).1 rfl⟩
  rw [h0] at hlen
  cases hlen

/-- The checksum byte by the sum of the operands themselves (R120). -/
theorem csum_encodedFrame (cmd : Byte) (p : List Byte) :
    (encodedFrame cmd p).csum =
      BitVec.ofNat 8 ((256 - (p.length + 1 + cmd.toNat + (p.map BitVec.toNat).sum) % 256) % 256) := by
  have hsum : sumBytes (BitVec.ofNat 8 (p.length + 1) :: cmd :: p) % 256 =
      (p.length + 1 + cmd.toNat + (p.map BitVec.toNat).sum) % 256 := by
    rw [sumBytes_cons, sumBytes_cons, sumBytes, BitVec.toNat_ofNat]
    omega
  exact congrArg (fun n => BitVec.ofNat 8 ((256 - n) % 256)) hsum

theorem exec_encode_eq_raw {s : State} (h : s.st.init = true) (cmd : Byte) {p : List Byte}
    (hp : p.length ≤ s.cfg.maxPayload.val) :
    exec (.encode cmd p) s = .next (s.respond .ok (encodedFrame cmd p).raw) :=
  exec_encode_of_le h cmd hp

/-- MAX_PAYLOAD is at most 254 (R7), so LEN of an accepted payload fits its byte. -/
theorem length_le_of_le_maxPayload {s : State} {p : List Byte} (hp : p.length ≤ s.cfg.maxPayload.val) :
    p.length ≤ 254 :=
  hp.trans (Nat.le_of_lt_succ s.cfg.maxPayload.isLt)

/-- The responses show an answer's data. -/
theorem respond_rdata_inj {s : State} {e e' : Status} {d d' : List Byte} (h : s.respond e d = s.respond e' d') :
    d = d' := by
  have hr : [Response.mk e d] = [Response.mk e' d'] := List.append_cancel_left (congrArg State.responses h)
  exact (Response.mk.inj (List.singleton_inj.1 hr)).2

/-! ### The bytes of valid frames determine them -/

theorem Frame.Valid.eq_of_raw_eq {f g : Frame} (hf : f.Valid) (hg : g.Valid) (h : f.raw = g.raw) : f = g :=
  Option.some.inj <| calc
    some f = parseFrame f.raw := (parseFrame_raw hf).symm
    _ = parseFrame g.raw := congrArg _ h
    _ = some g := parseFrame_raw hg

/-- A frame delimits itself, by its byte 0. -/
theorem Frame.Valid.eq_of_raw_append_eq {f g : Frame} {xs ys : List Byte} (hf : f.Valid) (hg : g.Valid)
    (h : f.raw ++ xs = g.raw ++ ys) : f = g ∧ xs = ys := by
  have hlen : f.len = g.len := by
    rw [raw_eq, raw_eq] at h
    exact (List.cons.inj h).1
  obtain ⟨hraw, htail⟩ := List.append_inj h (by rw [hf.raw_length, hg.raw_length, hlen])
  exact ⟨hf.eq_of_raw_eq hg hraw, htail⟩

theorem parseRaws_flatMap_raw {fs : List Frame} (h : ∀ f ∈ fs, f.Valid) :
    parseRaws fs.length (fs.flatMap Frame.raw) = some fs := by
  induction fs with
  | nil => rfl
  | cons f fs ih =>
    have hf : f.Valid := h f (by simp)
    have hwin : parseFrame ((f.raw ++ fs.flatMap Frame.raw).take (f.len.toNat + 2)) = some f := by
      rw [← hf.raw_length, List.take_left, parseFrame_raw hf]
    have hrest : parseRaws fs.length ((f.raw ++ fs.flatMap Frame.raw).drop (f.len.toNat + 2)) = some fs := by
      rw [← hf.raw_length, List.drop_left]
      exact ih fun g hg => h g (by simp [hg])
    rw [raw_eq, List.cons_append] at hwin hrest
    rw [List.flatMap_cons, raw_eq, List.cons_append, List.length_cons, parseRaws, hwin, hrest]

/-- The consumer reads back the frames that were answered (R76). -/
theorem parseFrameList_serializeFrames {fs : List Frame} (h : ∀ f ∈ fs, f.Valid) (hlen : fs.length < 256) :
    parseFrameList (serializeFrames fs) = some fs := by
  have hk : (BitVec.ofNat 8 fs.length).toNat = fs.length := by
    rw [BitVec.toNat_ofNat]
    exact Nat.mod_eq_of_lt hlen
  rw [serializeFrames, parseFrameList, hk, parseRaws_flatMap_raw h]

theorem serializeFrames_singleton (f : Frame) : serializeFrames [f] = 0x01#8 :: f.raw := by
  simp [serializeFrames]

/-! ### What a scan does at rest and before a frame -/

/-- A complete window is not at rest (R147). -/
theorem Frame.Valid.not_atRest_raw_append {f : Frame} (hf : f.Valid) (tail : List Byte) :
    restShape (f.raw ++ tail) ≠ true := by
  intro h
  have hlen := hf.raw_length
  rw [raw_eq, List.cons_append, restShape_cons, List.length_append] at h
  rw [raw_eq, List.length_cons] at hlen
  omega

/-- A buffer at rest decides nothing (R142 cases a and c). -/
theorem Scans.of_atRest {buf rest : List Byte} {evs : List ScanEvent} (hbuf : restShape buf = true)
    (h : Scans buf evs rest) : evs = [] ∧ rest = buf := by
  cases h with
  | rest => exact ⟨rfl, rfl⟩
  | zero => exact absurd rfl ((restShape_cons _ _).1 hbuf).1
  | accept valid => exact absurd hbuf (valid.not_atRest_raw_append _)
  | mismatch _ complete => exact absurd ((restShape_cons _ _).1 hbuf).2 (not_le.2 complete)

/-- A valid frame at the front of the buffer is accepted, whatever follows it (R142 case d, R143). -/
theorem Scans.of_frame {f : Frame} {tail rest : List Byte} {evs : List ScanEvent} (hf : f.Valid)
    (h : Scans (f.raw ++ tail) evs rest) : ∃ evs', evs = .accept f :: evs' ∧ Scans tail evs' rest := by
  generalize hbuf : f.raw ++ tail = buf at h
  cases h with
  | rest hrest => exact absurd (hbuf ▸ hrest) (hf.not_atRest_raw_append tail)
  | zero => exact absurd (List.cons.inj hbuf).1 hf.1
  | accept hg h =>
    obtain ⟨rfl, rfl⟩ := hf.eq_of_raw_append_eq hg hbuf
    exact ⟨_, rfl, h⟩
  | @mismatch head _ _ _ _ _ invalid =>
    obtain rfl : f.len = head := (List.cons.inj hbuf).1
    rw [← hbuf, ← hf.raw_length, List.take_left] at invalid
    exact absurd hf.2.2 invalid

/-- The front of a frame, while bytes of it are missing, waits for them (R142 case c). -/
theorem Frame.Valid.atRest_of_append_eq_raw {f : Frame} {pre post : List Byte} (hf : f.Valid)
    (h : pre ++ post = f.raw) (hpost : post ≠ []) : restShape pre = true := by
  cases pre with
  | nil => rfl
  | cons head rest =>
    have hhead : head = f.len := (List.cons.inj h).1
    have hlen := hf.raw_length
    have hpos := List.length_pos_iff.2 hpost
    rw [← h, List.length_append, List.length_cons] at hlen
    exact (restShape_cons _ _).2 ⟨hhead ▸ hf.1, by rw [hhead]; omega⟩

/-! ### What a receive operation does to a frame that arrives -/

/-- From rest, FEED and FEEDN scan the buffer and their bytes by the relation `Scans` (R141, R149). -/
theorem exec_receive_scans {i : Instr} {s : State} (h : s.st.init = true) (hrec : i.isReceive = true)
    (hbuf : restShape s.st.buf = true) :
    ∃ evs rest, Scans (s.st.buf ++ i.delivers) evs rest ∧
      exec i s = .next ((s.withCodec ⟨s.st.init, rest, s.st.malf + BitVec.ofNat 32 (discards evs)⟩).respond .ok
        (serializeFrames (accepted evs))) := by
  obtain ⟨evs, rest, hscan, hreceive⟩ := receive_scans i.delivers s.st hbuf
  exact ⟨evs, rest, hscan, by rw [exec_of_receive h hrec, hreceive, finishReceive_eq]⟩

/-- Bytes that leave the buffer at rest are buffered, and no frame is answered. -/
theorem exec_receive_of_atRest {i : Instr} {s : State} (h : s.st.init = true) (hrec : i.isReceive = true)
    (hbuf : restShape s.st.buf = true) (hrest : restShape (s.st.buf ++ i.delivers) = true) :
    exec i s = .next ((s.withCodec { s.st with buf := s.st.buf ++ i.delivers }).respond .ok [0x00#8]) := by
  obtain ⟨evs, rest, hscan, hx⟩ := exec_receive_scans h hrec hbuf
  obtain ⟨rfl, rfl⟩ := hscan.of_atRest hrest
  simpa [serializeFrames] using hx

/-- Bytes that complete a frame empty the buffer, and the frame is answered. -/
theorem exec_receive_of_frame {i : Instr} {s : State} {f : Frame} (h : s.st.init = true) (hrec : i.isReceive = true)
    (hf : f.Valid) (hbytes : s.st.buf ++ i.delivers = f.raw) (hi : i.delivers ≠ []) :
    exec i s = .next ((s.withCodec { s.st with buf := [] }).respond .ok (0x01#8 :: f.raw)) := by
  obtain ⟨evs, rest, hscan, hx⟩ := exec_receive_scans h hrec (hf.atRest_of_append_eq_raw hbytes hi)
  rw [hbytes, ← List.append_nil f.raw] at hscan
  obtain ⟨evs', rfl, hscan'⟩ := hscan.of_frame hf
  obtain ⟨rfl, rfl⟩ := hscan'.of_atRest restShape_nil
  simpa [serializeFrames_singleton] using hx

theorem stream_cons (i : Instr) (is : List Instr) : stream (i :: is) = i.delivers ++ stream is :=
  List.flatMap_cons

/-- Receive operations that complete a frame with the last one's bytes answer no frame before it, and that frame then. -/
theorem runOps_of_frame (before : List Instr) {last : Instr} {s : State} {f : Frame} (h : s.st.init = true)
    (hrec : ∀ i ∈ before ++ [last], i.isReceive = true) (hf : f.Valid)
    (hbytes : s.st.buf ++ stream (before ++ [last]) = f.raw) (hlast : last.delivers ≠ []) :
    runOps (before ++ [last]) s = .next { s with
      st := { s.st with buf := [] }
      responses := s.responses ++ (before.map fun _ => ⟨.ok, [0x00#8]⟩) ++ [⟨.ok, 0x01#8 :: f.raw⟩] } := by
  induction before generalizing s with
  | nil =>
    have hx := exec_receive_of_frame h (hrec last (by simp)) hf (by simpa [stream] using hbytes) hlast
    rw [List.nil_append, runOps_cons_of_next [] hx]
    simp [runOps, State.respond, State.withCodec]
  | cons i before ih =>
    have hpost : stream (before ++ [last]) ≠ [] := by simp [stream, hlast]
    rw [List.cons_append, stream_cons] at hbytes
    have hbuf := hf.atRest_of_append_eq_raw hbytes (List.append_ne_nil_of_right_ne_nil _ hpost)
    rw [← List.append_assoc] at hbytes
    have hrest := hf.atRest_of_append_eq_raw hbytes hpost
    have hx := exec_receive_of_atRest h (hrec i (by simp)) hbuf hrest
    have hrun := ih (s := (s.withCodec { s.st with buf := s.st.buf ++ i.delivers }).respond .ok [0x00#8]) h
      (fun j hj => hrec j (List.mem_cons_of_mem i hj)) hbytes
    rw [List.cons_append, runOps_cons_of_next _ hx, hrun]
    simp [State.respond, State.withCodec]

end Sys2Proof.Machine
end

section
/-! The family `41_encoder.md`: ENCODE's answer (R120), the round trip through the decoder (R121), and what the output says of
the operands (R122). -/

namespace Sys2Proof.Machine

/-- Settles O33: the bytes are those of a valid frame, so every receive operation but the last one waits, and the last one
accepts it. -/
theorem encodedFramesComeBackFromTheDecoder : Obligations.EncodedFramesComeBackFromTheDecoder := by
  intro s cmd p before last hinit hbuf hp hrec hlast bytes hbytes hstream
  have hf := encodedFrame_valid cmd (length_le_of_le_maxPayload hp)
  obtain rfl : (encodedFrame cmd p).raw = bytes :=
    respond_rdata_inj (Host.Outcome.next.inj ((exec_encode_eq_raw hinit cmd hp).symm.trans hbytes))
  have hrun := runOps_of_frame before hinit hrec hf (by rw [hbuf, hstream, List.nil_append]) hlast
  refine ⟨?_, encodedFrame cmd p, ?_, rfl, rfl⟩
  · have hcodec : { s.st with buf := [] } = s.st := by rw [← hbuf]
    rwa [hcodec] at hrun
  · rw [← serializeFrames_singleton]
    exact parseFrameList_serializeFrames (by simpa using hf) (by simp)

/-- Settles O32: the output is the bytes of one valid frame whose record holds the operands, and bytes have one record. -/
theorem encoderOutputsAreValidAndDistinct : Obligations.EncoderOutputsAreValidAndDistinct := by
  refine ⟨fun s cmd p hinit hp => ?_, fun s t cmd cmd' p p' hinit hp hp' ht ht' => ?_⟩
  · have hle := length_le_of_le_maxPayload hp
    have hf := encodedFrame_valid cmd hle
    have hlen := encodedFrame_len_toNat cmd hle
    exact ⟨encodedFrame cmd p, exec_encode_eq_raw hinit cmd hp, hf, rfl, rfl, parseFrame_raw hf, by omega, by omega⟩
  · rw [exec_encode_eq_raw hinit cmd hp] at ht
    rw [exec_encode_eq_raw hinit cmd' hp'] at ht'
    have hraw := respond_rdata_inj (Host.Outcome.next.inj (ht.trans ht'.symm))
    have hframe := (encodedFrame_valid cmd (length_le_of_le_maxPayload hp)).eq_of_raw_eq
      (encodedFrame_valid cmd' (length_le_of_le_maxPayload hp')) hraw
    exact ⟨congrArg Frame.cmd hframe, congrArg Frame.payload hframe⟩

/-- Settles O31: the two lengths of the payload, and the refusal that goes before both. -/
theorem encodeAnswersTheFrame : Obligations.EncodeAnswersTheFrame := by
  refine ⟨fun s cmd p hinit hp => ?_, fun s cmd p hinit hp => exec_encode_of_gt hinit cmd hp,
    fun s cmd p hinit => exec_of_not_init hinit nofun, fun _ _ _ => rfl⟩
  rw [← csum_encodedFrame]
  exact exec_encode_eq_raw hinit cmd hp

end Sys2Proof.Machine
end

section
/-! SUPPORT. The control state and the buffer at rest (R140, R147), that a stream has one scan (R142), what receiving and a run of
operations do by that scan (R149, R150), and how a scan's events measure the stream. -/

namespace Sys2Proof

/-! ### The must-be-0 fields of FEED and FEEDN (R74) -/

theorem decode_feed_reserved (a : Byte) {b : Byte} (h : b ≠ 0#8) (data : List Byte) :
    decode ⟨0x30#8, a, b, data⟩ = .illegal (.reservedField 0x30#8 a b) :=
  legalWhen_of_ne h (.feed a) ⟨0x30#8, a, b, data⟩

theorem decode_feedn_reserved {a : Byte} (h : a ≠ 0#8) (b : Byte) (data : List Byte) :
    decode ⟨0x31#8, a, b, data⟩ = .illegal (.reservedField 0x31#8 a b) :=
  legalWhen_of_ne h (.feedn data) ⟨0x31#8, a, b, data⟩

theorem delivers_of_not_receive {i : Instr} (h : i.isReceive = false) : i.delivers = [] := by
  cases i with
  | feed | feedn => cases h
  | reset | status | csumGen | csumCheck | encode => rfl

theorem length_delivers_of_wellFormed {i : Instr} (h : i.WellFormed) : i.delivers.length ≤ 255 := by
  cases i with
  | feedn data => exact h
  | feed | reset | status | csumGen | csumCheck | encode => simp [Instr.delivers]

namespace Machine

/-! ### The buffer at rest (R147) -/

theorem length_le_of_atRest {buf : List Byte} (h : restShape buf = true) : buf.length ≤ 256 := by
  cases buf with
  | nil => simp
  | cons head rest =>
    have hlen := ((restShape_cons head rest).1 h).2
    have hhead := head.isLt
    rw [List.length_cons]
    omega

theorem head_of_full_atRest {buf : List Byte} (h : restShape buf = true) (hfull : buf.length = 256) :
    buf.head? = some 0xFF#8 := by
  cases buf with
  | nil => cases hfull
  | cons head rest =>
    have hlen := ((restShape_cons head rest).1 h).2
    have hhead := head.isLt
    rw [List.length_cons] at hfull
    exact congrArg some (BitVec.eq_of_toNat_eq (y := 0xFF#8) (by rw [BitVec.toNat_ofNat]; omega))

/-- What is in front of the end of a buffer at rest is at rest too. -/
theorem atRest_of_append {xs ys : List Byte} (h : restShape (xs ++ ys) = true) : restShape xs = true := by
  cases xs with
  | nil => rfl
  | cons head rest =>
    obtain ⟨hhead, hlen⟩ := (restShape_cons head (rest ++ ys)).1 h
    rw [List.length_append] at hlen
    exact (restShape_cons head rest).2 ⟨hhead, by omega⟩

/-- No zero byte is a head at rest, so a buffer of zeros only is empty. -/
theorem eq_nil_of_atRest_of_zeros {buf : List Byte} (h : restShape buf = true) (hzero : ∀ b ∈ buf, b = 0#8) :
    buf = [] := by
  cases buf with
  | nil => rfl
  | cons head rest => exact absurd (hzero head (by simp)) ((restShape_cons head rest).1 h).1

/-! ### The control state (R140) -/

theorem controlState_eq_empty_iff (c : Codec) : controlState c = .empty ↔ c.buf.length = 0 := by
  cases hbuf : c.buf with
  | nil => simp [controlState_of_nil hbuf]
  | cons head rest =>
    rw [controlState_of_cons hbuf]
    split_ifs <;> simp

theorem controlState_eq_collect_iff (c : Codec) (L k : Nat) :
    controlState c = .collect L k ↔
      ∃ head rest, c.buf = head :: rest ∧ L = head.toNat ∧ 1 ≤ L ∧ k = c.buf.length ∧ k ≤ L + 1 := by
  cases hbuf : c.buf with
  | nil => simp [controlState_of_nil hbuf]
  | cons head rest =>
    rw [controlState_of_cons hbuf]
    split_ifs with h0 hl
    · refine iff_of_false nofun ?_
      rintro ⟨_, _, ⟨⟩, rfl, hpos, -⟩
      exact absurd hpos (by simp [h0])
    · constructor
      · rintro ⟨⟩
        exact ⟨head, rest, rfl, rfl, len_pos h0, rfl, Nat.succ_le_succ hl⟩
      · rintro ⟨_, _, ⟨⟩, rfl, -, rfl, -⟩
        rfl
    · refine iff_of_false nofun ?_
      rintro ⟨_, _, ⟨⟩, rfl, -, rfl, hk⟩
      exact hl (Nat.le_of_succ_le_succ hk)

theorem controlState_eq_zero_iff (c : Codec) : controlState c = .zero ↔ c.buf.head? = some 0#8 := by
  cases hbuf : c.buf with
  | nil => simp [controlState_of_nil hbuf]
  | cons head rest =>
    rw [controlState_of_cons hbuf]
    split_ifs with h0 hl <;> simp [h0]

theorem controlState_eq_eval_iff (c : Codec) (L : Nat) :
    controlState c = .eval L ↔
      ∃ head rest, c.buf = head :: rest ∧ L = head.toNat ∧ 1 ≤ L ∧ L + 2 ≤ c.buf.length := by
  cases hbuf : c.buf with
  | nil => simp [controlState_of_nil hbuf]
  | cons head rest =>
    rw [controlState_of_cons hbuf]
    split_ifs with h0 hl
    · refine iff_of_false nofun ?_
      rintro ⟨_, _, ⟨⟩, rfl, hpos, -⟩
      exact absurd hpos (by simp [h0])
    · refine iff_of_false nofun ?_
      rintro ⟨_, _, ⟨⟩, rfl, -, hwindow⟩
      exact absurd hl (not_le.2 (Nat.lt_of_succ_lt_succ hwindow))
    · constructor
      · rintro ⟨⟩
        exact ⟨head, rest, rfl, rfl, len_pos h0, Nat.succ_lt_succ (not_le.1 hl)⟩
      · rintro ⟨_, _, ⟨⟩, rfl, -, -⟩
        rfl

/-! ### A stream has one scan (R142) -/

/-- A zero head is discarded (R142 case b). -/
theorem Scans.of_zero {buf rest : List Byte} {evs : List ScanEvent} (h : Scans (0#8 :: buf) evs rest) :
    ∃ evs', evs = .discard 0#8 :: evs' ∧ Scans buf evs' rest := by
  generalize hbuf : 0#8 :: buf = whole at h
  cases h with
  | rest hrest =>
    rw [← hbuf] at hrest
    exact absurd rfl ((restShape_cons _ _).1 hrest).1
  | zero h =>
    cases hbuf
    exact ⟨_, rfl, h⟩
  | accept valid => exact absurd (List.cons.inj hbuf).1.symm valid.1
  | mismatch nonzero => exact absurd (List.cons.inj hbuf).1.symm nonzero

/-- A head whose complete window fails the sum is discarded (R142 case e). -/
theorem Scans.of_mismatch {head : Byte} {buf rest : List Byte} {evs : List ScanEvent} (nonzero : head ≠ 0#8)
    (complete : head.toNat < buf.length) (invalid : sumBytes ((head :: buf).take (head.toNat + 2)) % 256 ≠ 0)
    (h : Scans (head :: buf) evs rest) : ∃ evs', evs = .discard head :: evs' ∧ Scans buf evs' rest := by
  generalize hbuf : head :: buf = whole at h
  cases h with
  | rest hrest =>
    rw [← hbuf] at hrest
    exact absurd ((restShape_cons _ _).1 hrest).2 (not_le.2 complete)
  | zero => exact absurd (List.cons.inj hbuf).1 nonzero
  | @accept _ _ _ f valid h =>
    obtain rfl : head = f.len := (List.cons.inj hbuf).1
    rw [hbuf, ← valid.raw_length, List.take_left] at invalid
    exact absurd valid.2.2 invalid
  | mismatch _ _ _ h =>
    cases hbuf
    exact ⟨_, rfl, h⟩

theorem Scans.unique {buf rest rest' : List Byte} {evs evs' : List ScanEvent} (h : Scans buf evs rest)
    (h' : Scans buf evs' rest') : evs = evs' ∧ rest = rest' := by
  induction h generalizing evs' rest' with
  | rest hrest =>
    obtain ⟨rfl, rfl⟩ := h'.of_atRest hrest
    exact ⟨rfl, rfl⟩
  | zero h ih =>
    obtain ⟨evs'', rfl, h''⟩ := h'.of_zero
    exact (ih h'').imp_left (congrArg _)
  | accept valid h ih =>
    obtain ⟨evs'', rfl, h''⟩ := h'.of_frame valid
    exact (ih h'').imp_left (congrArg _)
  | mismatch nonzero complete invalid h ih =>
    obtain ⟨evs'', rfl, h''⟩ := h'.of_mismatch nonzero complete invalid
    exact (ih h'').imp_left (congrArg _)

/-! ### What the loop and receiving do, given the scan -/

/-- Extracting gives whatever scan the buffer has (R142, R146). -/
theorem extract_of_scans {sc : Scan} {rest : List Byte} {evs : List ScanEvent} (h : Scans sc.st.buf evs rest) :
    extract sc =
      { st := ⟨sc.st.init, rest, sc.st.malf + BitVec.ofNat 32 (discards evs)⟩, out := sc.out ++ accepted evs } := by
  obtain ⟨evs', rest', h', hextract⟩ := scanLoop_scans (sc.st.buf.length + 1) sc le_rfl
  obtain ⟨rfl, rfl⟩ := h.unique h'
  exact hextract

theorem receive_atRest (bs : List Byte) {c : Codec} (h : restShape c.buf = true) :
    restShape (receive bs c).st.buf = true := by
  obtain ⟨evs, rest, hscan, hreceive⟩ := receive_scans bs c h
  rw [hreceive]
  exact hscan.rest_atRest

/-! ### What operations and runs do to the stream -/

/-- An operation other than RESET receives what it delivers, and answers the windows of the frames accepted (R55, R76). -/
theorem exec_receives {i : Instr} {s : State} (h : s.st.init = true) (hi : i ≠ .reset) :
    ∃ e d, exec i s = .next ((s.withCodec (receive i.delivers s.st).st).respond e d) ∧
      answeredWindows [i] [⟨e, d⟩] = (receive i.delivers s.st).out.flatMap Frame.raw := by
  cases hrec : i.isReceive with
  | false =>
    obtain ⟨e, d, hx⟩ := exec_of_reading s hrec hi
    rw [delivers_of_not_receive hrec]
    exact ⟨e, d, hx, by simp [answeredWindows, hrec]⟩
  | true => exact ⟨_, _, exec_of_receive h hrec, by simp [answeredWindows, hrec, serializeFrames]⟩

theorem answeredWindows_cons (i : Instr) (r : Response) (is : List Instr) (rs : List Response) :
    answeredWindows (i :: is) (r :: rs) = answeredWindows [i] [r] ++ answeredWindows is rs := by
  simp [answeredWindows]

/-- A run without RESET receives its stream, however it is split and whatever stands between (R150). -/
theorem runOps_receives (ops : List Instr) {s : State} (h : s.st.init = true) (hops : ∀ i ∈ ops, i ≠ .reset) :
    ∃ t rs, runOps ops s = .next t ∧ t.responses = s.responses ++ rs ∧ rs.length = ops.length ∧
      t.st = (receive (stream ops) s.st).st ∧
      answeredWindows ops rs = (receive (stream ops) s.st).out.flatMap Frame.raw := by
  induction ops generalizing s with
  | nil => exact ⟨s, [], rfl, by simp, rfl, rfl, rfl⟩
  | cons i ops ih =>
    obtain ⟨e, d, hx, hwindows⟩ := exec_receives h (hops i (by simp))
    obtain ⟨t, rs, hrun, hresponses, hlen, hst, hrest⟩ :=
      ih (s := (s.withCodec (receive i.delivers s.st).st).respond e d) ((receive_init _ _).trans h)
        fun j hj => hops j (List.mem_cons_of_mem i hj)
    rw [stream_cons, receive_append]
    refine ⟨t, ⟨e, d⟩ :: rs, (runOps_cons_of_next ops hx).trans hrun, by simp [hresponses], by simp [hlen], hst, ?_⟩
    rw [answeredWindows_cons, hwindows, hrest, List.flatMap_append]
    rfl

/-- From rest, a run without RESET scans the buffer and its stream by the relation `Scans` (R142, R150). -/
theorem runOps_scans (ops : List Instr) {s : State} (h : s.st.init = true) (hbuf : restShape s.st.buf = true)
    (hops : ∀ i ∈ ops, i ≠ .reset) :
    ∃ t rs evs, runOps ops s = .next t ∧ t.responses = s.responses ++ rs ∧ rs.length = ops.length ∧
      Scans (s.st.buf ++ stream ops) evs t.st.buf ∧ t.st.init = true ∧
      t.st.malf = s.st.malf + BitVec.ofNat 32 (discards evs) ∧
      answeredWindows ops rs = (accepted evs).flatMap Frame.raw := by
  obtain ⟨t, rs, hrun, hresponses, hlen, hst, hwindows⟩ := runOps_receives ops h hops
  obtain ⟨evs, rest, hscan, hreceive⟩ := receive_scans (stream ops) s.st hbuf
  rw [hreceive] at hst hwindows
  exact ⟨t, rs, evs, hrun, hresponses, hlen, hst ▸ hscan, hst ▸ h, hst ▸ rfl, hwindows⟩

/-! ### The rest invariant (R147) -/

theorem exec_keeps_inv {i : Instr} {s t : State} (hs : s.Inv) (h : exec i s = .next t) : t.Inv := by
  intro ht
  by_cases hi : i = .reset
  · subst hi
    cases h
    rfl
  · have hinit : s.st.init = true := (exec_keeps_init hi h).symm.trans ht
    obtain ⟨e, d, hx, -⟩ := exec_receives hinit hi
    cases hx.symm.trans h
    exact receive_atRest i.delivers (hs hinit)

/-- Accepting an operation does not touch the codec (R29). -/
theorem fetch_keeps_st {s s' : State} {d : Decoded} (h : fetch s = some (d, s')) : s'.st = s.st := by
  obtain ⟨a, g, t, q, -, -, -, -, rfl⟩ := fetch_eq_some h
  exact setQueue_st a q s

/-! ### ZFLUSH (R78) -/

theorem stream_zflush : stream zflush = List.replicate 256 0x00#8 := by
  rw [zflush, stream_cons, List.replicate_succ' (n := 255)]
  rfl

/-! ### How the events measure the stream -/

@[simp] theorem width_nil : width [] = 0 := rfl

@[simp] theorem width_cons (e : ScanEvent) (evs : List ScanEvent) :
    width (e :: evs) = e.bytes.length + width evs := by
  simp [width]

@[simp] theorem width_append (evs evs' : List ScanEvent) : width (evs ++ evs') = width evs + width evs' := by
  simp [width]

/-- The events take the accepted windows, and one byte for each discard (R157). -/
theorem width_eq (evs : List ScanEvent) :
    width evs = ((accepted evs).flatMap Frame.raw).length + discards evs := by
  induction evs with
  | nil => rfl
  | cons e evs ih =>
    rw [width_cons, ih]
    cases e with
    | discard head =>
      rw [accepted_discard, discards_discard, ScanEvent.bytes, List.length_singleton]
      omega
    | accept f =>
      rw [accepted_accept, discards_accept, ScanEvent.bytes, List.flatMap_cons, List.length_append]
      omega

/-- A window has at least three bytes (R63, R156). -/
theorem three_mul_length_le (fs : List Frame) : 3 * fs.length ≤ (fs.flatMap Frame.raw).length := by
  induction fs with
  | nil => simp
  | cons f fs ih =>
    rw [List.flatMap_cons, List.length_append, List.length_cons, raw_length]
    omega

theorem Scans.length_eq {buf rest : List Byte} {evs : List ScanEvent} (h : Scans buf evs rest) :
    buf.length = width evs + rest.length := by
  rw [h.partition, List.length_append]
  rfl

theorem Scans.rest_suffix {buf rest : List Byte} {evs : List ScanEvent} (h : Scans buf evs rest) : rest <:+ buf :=
  ⟨_, h.partition.symm⟩

/-! ### Which windows are accepted where (R152) -/

/-- The frame is accepted with its first byte at this position of the stream. -/
def AcceptsAt (evs : List ScanEvent) (F : Frame) (pos : Nat) : Prop :=
  ∃ pre post, evs = pre ++ .accept F :: post ∧ width pre = pos

/-- An accepted window that starts before this position reaches it. -/
def Covers (evs : List ScanEvent) (pos : Nat) : Prop :=
  ∃ pre f post, evs = pre ++ .accept f :: post ∧ width pre < pos ∧ pos < width pre + f.raw.length

theorem AcceptsAt.cons {evs : List ScanEvent} {F : Frame} {pos : Nat} (e : ScanEvent) (h : AcceptsAt evs F pos) :
    AcceptsAt (e :: evs) F (e.bytes.length + pos) := by
  obtain ⟨pre, post, rfl, rfl⟩ := h
  exact ⟨e :: pre, post, rfl, width_cons e pre⟩

theorem Covers.cons {evs : List ScanEvent} {pos : Nat} (e : ScanEvent) (h : Covers evs pos) :
    Covers (e :: evs) (e.bytes.length + pos) := by
  obtain ⟨pre, f, post, rfl, hstart, hend⟩ := h
  refine ⟨e :: pre, f, post, rfl, ?_, ?_⟩ <;> rw [width_cons] <;> omega

/-- Accepted windows do not overlap. -/
theorem AcceptsAt.not_covers {evs : List ScanEvent} {F : Frame} {pos : Nat} (h : AcceptsAt evs F pos) :
    ¬ Covers evs pos := by
  obtain ⟨pre, post, rfl, rfl⟩ := h
  rintro ⟨pre', f, post', heq, hstart, hend⟩
  obtain ⟨mid, hmid, hpost⟩ | ⟨mid, hmid, hpost⟩ := List.append_eq_append_iff.1 heq
  · rw [hmid, width_append] at hstart
    omega
  · cases mid with
    | nil =>
      rw [hmid, List.append_nil] at hstart
      omega
    | cons e mid =>
      obtain rfl : .accept f = e := (List.cons.inj hpost).1
      rw [hmid, width_append, width_cons, ScanEvent.bytes] at hend
      omega

/-- A valid frame with 256 bytes from its first byte on is accepted where it stands, or an accepted window covers its first
byte: no byte before it stays buffered, and the frame itself is complete (R152, R154). -/
theorem Scans.acceptsAt_or_covers {buf rest g tail : List Byte} {evs : List ScanEvent} {F : Frame}
    (h : Scans buf evs rest) (hF : F.Valid) (hbuf : buf = g ++ (F.raw ++ tail)) (hlen : 256 ≤ (F.raw ++ tail).length) :
    AcceptsAt evs F g.length ∨ Covers evs g.length := by
  induction evs generalizing buf g with
  | nil =>
    cases h with
    | rest hrest =>
      cases g with
      | nil => exact absurd (hbuf ▸ hrest) (hF.not_atRest_raw_append tail)
      | cons x g =>
        have hle := length_le_of_atRest hrest
        rw [hbuf, List.cons_append, List.length_cons, List.length_append] at hle
        omega
  | cons e evs ih =>
    cases g with
    | nil =>
      rw [hbuf, List.nil_append] at h
      obtain ⟨evs', hevs, -⟩ := h.of_frame hF
      exact .inl ⟨[], evs', hevs, rfl⟩
    | cons x g =>
      rw [List.length_cons, Nat.add_comm]
      cases h with
      | zero h | mismatch _ _ _ h => exact (ih h (List.cons.inj hbuf).2).imp (.cons _) (.cons _)
      | @accept buf _ _ f valid h =>
        by_cases hcover : 1 + g.length < f.raw.length
        · exact .inr ⟨[], f, evs, rfl, by simp, by simpa using hcover⟩
        · obtain ⟨g', hg⟩ : f.raw <+: x :: g :=
            List.prefix_of_prefix_length_le ⟨buf, hbuf⟩ ⟨F.raw ++ tail, rfl⟩ (by rw [List.length_cons]; omega)
          have hwidth : 1 + g.length = f.raw.length + g'.length := by
            rw [← List.length_append, hg, List.length_cons, Nat.add_comm]
          rw [← hg, List.append_assoc] at hbuf
          rw [hwidth]
          exact (ih h (List.append_cancel_left hbuf)).imp (.cons _) (.cons _)

end Machine

end Sys2Proof
end

section
/-! The family `42_decoder.md`: the scan by its rules (R140 to R149), the independence of the split (R150), what is accepted and
what stays buffered (R151 to R155), and the frame list and the byte count (R156, R157). -/

namespace Sys2Proof.Machine

/-- Settles O14: accepting an operation leaves the codec, and what a receive operation leaves is at rest. -/
theorem stepKeepsTheRestInvariant : Obligations.StepKeepsTheRestInvariant := by
  intro s s' hs h
  obtain rfl | ⟨i, s₁, hf, hx⟩ | ⟨why, s₁, hf, rfl⟩ := step_next_cases h
  · exact hs
  · refine exec_keeps_inv (s := s₁) ?_ hx
    rwa [State.Inv, fetch_keeps_st hf]
  · rwa [State.Inv, raiseIllegal, raise_eq_respond, respond_st, fetch_keeps_st hf]

/-- Settles O34: the loop realises the relation; the other parts are the refusal before RESET and the decoder's rows. -/
theorem receivingFollowsTheScanRules : Obligations.ReceivingFollowsTheScanRules := by
  refine ⟨fun i s hrec hinit hs => ?_, fun i s hrec hinit => exec_of_not_init hinit (ne_reset_of_isReceive hrec),
    fun _ _ => rfl, fun a b data hb => decode_feed_reserved a hb data, fun _ _ => rfl,
    fun a b data ha => decode_feedn_reserved ha b data⟩
  obtain ⟨evs, rest, hscan, hx⟩ := exec_receive_scans hinit hrec (hs hinit)
  exact ⟨evs, rest, hscan, hinit ▸ hx⟩

/-- Settles O42: both give the one scan of the buffer and the chunk. -/
theorem extractingOnceEqualsExtractingAfterEveryByte : Obligations.ExtractingOnceEqualsExtractingAfterEveryByte := by
  intro c data hbuf
  obtain ⟨evs, rest, hscan, hreceive⟩ := receive_scans data c hbuf
  rw [hreceive]
  exact extract_of_scans (sc := { st := { c with buf := c.buf ++ data }, out := [] }) hscan

/-- Settles O44: both runs receive the one stream. -/
theorem splittingTheStreamChangesNothing : Obligations.SplittingTheStreamChangesNothing := by
  intro s₁ s₂ ops₁ ops₂ hst hinit hops₁ hops₂ hstream
  obtain ⟨t₁, rs₁, hrun₁, hr₁, hlen₁, hst₁, hw₁⟩ := runOps_receives ops₁ hinit hops₁
  obtain ⟨t₂, rs₂, hrun₂, hr₂, hlen₂, hst₂, hw₂⟩ := runOps_receives ops₂ (hst ▸ hinit) hops₂
  rw [← hst, ← hstream] at hst₂ hw₂
  exact ⟨t₁, t₂, rs₁, rs₂, hrun₁, hrun₂, hr₁, hr₂, hlen₁, hlen₂, hst₁.trans hst₂.symm, hw₁.trans hw₂.symm⟩

/-- Settles O45: accepted windows do not overlap, and a frame whose first byte none covers is accepted. -/
theorem framesAreLostOnlyToCoveringWindows : Obligations.FramesAreLostOnlyToCoveringWindows := by
  intro s ops g tail F hinit hbuf hops hF hstream hlen
  obtain ⟨t, rs, evs, hrun, hresponses, hlength, hscan, -, -, hwindows⟩ := runOps_scans ops hinit (hbuf ▸ rfl) hops
  rw [hbuf, List.nil_append] at hscan
  have hcases : AcceptsAt evs F g.length ∨ Covers evs g.length :=
    hscan.acceptsAt_or_covers hF (hstream.trans (List.append_assoc ..)) hlen
  exact ⟨t, rs, evs, hrun, hresponses, hlength, hscan, hwindows, AcceptsAt.not_covers, hcases.resolve_right⟩

/-- Settles O35, by the rules of the scan. -/
theorem scanRulesAreDeterministic : Obligations.ScanRulesAreDeterministic :=
  fun _ _ _ _ _ h h' => h.unique h'

/-- Settles O38: the fed byte is the last of the frame. -/
theorem feedAcceptsACompletedFrameOfAnyLength : Obligations.FeedAcceptsACompletedFrameOfAnyLength :=
  fun _ b _ hinit hbytes hf => exec_receive_of_frame (i := .feed b) hinit rfl hf hbytes (List.cons_ne_nil b [])

/-- Settles O39: the scan discards the head, and goes on as the scan of the bytes behind it. -/
theorem feedDropsTheHeadOfAMismatchedWindow : Obligations.FeedDropsTheHeadOfAMismatchedWindow := by
  intro s b head rest hinit hbytes hhead hlen hsum
  obtain ⟨evs, rest', hscan, hreceive⟩ := receive_scans rest ⟨true, [], s.st.malf + 1#32⟩ restShape_nil
  have hwindow : (head :: rest).take (head.toNat + 2) = head :: rest :=
    List.take_of_length_le (by rw [List.length_cons, hlen])
  have hwhole : Scans (s.st.bufPush b).buf (.discard head :: evs) rest' := by
    rw [bufPush_buf, hbytes]
    exact .mismatch hhead (by omega) (by rwa [hwindow]) hscan
  have hfeed : receive [b] s.st = receive rest ⟨true, [], s.st.malf + 1#32⟩ := by
    rw [receive_singleton, extract_of_scans hwhole, hreceive]
    simp [hinit, malf_succ]
  refine ⟨_, exec_feed hinit b, ?_⟩
  rw [exec_feedn rfl, hfeed]
  rfl

/-- Settles O41: receiving is byte by byte, and frame lists count and hold the concatenated frames. -/
theorem feednIsSuccessiveFeeds : Obligations.FeednIsSuccessiveFeeds := by
  refine ⟨fun s hinit => exec_feedn hinit [], fun s b data hinit => ?_⟩
  refine ⟨_, _, (receive [b] s.st).out, (receive data (receive [b] s.st).st).out, exec_feed hinit b, rfl,
    exec_feedn ((receive_init [b] s.st).trans hinit) data, rfl, ?_⟩
  rw [exec_feedn hinit, ← List.singleton_append, receive_append]
  rfl

/-- Settles O43: with that many passes the loop gives the scan of the buffer, whose rest has no pass. -/
theorem scanEndsWithinItsPassBound : Obligations.ScanEndsWithinItsPassBound := by
  refine ⟨fun _ _ h => scanPass_shortens h, fun sc n hn => ?_⟩
  obtain ⟨evs, rest, hscan, hloop⟩ := scanLoop_scans n sc hn
  refine ⟨?_, hloop.trans (extract_of_scans hscan).symm⟩
  rw [scanPass_eq_none_iff, hloop]
  exact hscan.rest_atRest

/-- Settles O46: what is left of the stream is its end, and a buffer at rest is short. -/
theorem noByteStaysFor256MoreBytes : Obligations.NoByteStaysFor256MoreBytes := by
  intro s ops hinit hs hops
  obtain ⟨t, rs, evs, hrun, -, -, hscan, -⟩ := runOps_scans ops hinit (hs hinit) hops
  have hle : t.st.buf.length ≤ 256 := length_le_of_atRest hscan.rest_atRest
  exact ⟨t, hrun, hscan.rest_suffix, hle, fun hlong =>
    List.suffix_of_suffix_length_le hscan.rest_suffix (List.suffix_append ..) (hle.trans hlong)⟩

/-- Settles O47: 256 zeros reach behind every earlier byte, and no zero stays; 0xFF waits for 256 bytes. -/
theorem zflushEmptiesTheBuffer : Obligations.ZflushEmptiesTheBuffer := by
  refine ⟨stream_zflush, fun s hinit hs => ?_, fun s hinit hbuf => ?_⟩
  · obtain ⟨t, rs, evs, hrun, -, -, hscan, ht, -⟩ := runOps_scans zflush hinit (hs hinit) (by decide)
    have hrest := hscan.rest_atRest
    have hzeros : t.st.buf <:+ List.replicate 256 0x00#8 := by
      refine List.suffix_of_suffix_length_le (stream_zflush ▸ hscan.rest_suffix) (List.suffix_append ..) ?_
      rw [List.length_replicate]
      exact length_le_of_atRest hrest
    exact ⟨t, hrun, ht, eq_nil_of_atRest_of_zeros hrest fun b hb => List.eq_of_mem_replicate (hzeros.subset hb)⟩
  · have hrest : restShape (s.st.buf ++ (Instr.feedn (List.replicate 255 0x00#8)).delivers) = true := by
      rw [hbuf]
      exact (restShape_cons _ _).2 ⟨by decide, List.length_replicate.le⟩
    refine ⟨_, exec_receive_of_atRest hinit rfl (atRest_of_append hrest) hrest, ?_, rfl⟩
    rw [respond_st, withCodec_st, hbuf, List.length_append, Instr.delivers, List.length_replicate]
    rfl

/-- Settles O48: each window has three bytes of the at most 256 buffered and 255 delivered ones. -/
theorem frameListsAreBoundedAndReadBack : Obligations.FrameListsAreBoundedAndReadBack := by
  intro i s hrec hwf hinit hs
  obtain ⟨evs, rest, hscan, hx⟩ := exec_receive_scans hinit hrec (hs hinit)
  have hbound : 3 * (accepted evs).length ≤ 256 + i.delivers.length := by
    have hbuf := length_le_of_atRest (hs hinit)
    have hscanned := hscan.length_eq
    have hframes := three_mul_length_le (accepted evs)
    rw [List.length_append, width_eq] at hscanned
    omega
  have hdelivers := length_delivers_of_wellFormed hwf
  exact ⟨_, accepted evs, hx, rfl, parseFrameList_serializeFrames hscan.accepted_valid (by omega), hscan.accepted_valid,
    by omega, by omega, fun hone => by omega⟩

/-- Settles O49: D is the number of discards. -/
theorem everyDeliveredByteIsAccountedFor : Obligations.EveryDeliveredByteIsAccountedFor := by
  intro s ops hinit hbuf hmalf hops
  obtain ⟨t, rs, evs, hrun, hresponses, hlength, hscan, -, ht, hwindows⟩ :=
    runOps_scans ops hinit (hbuf ▸ rfl) fun i hi => ne_reset_of_isReceive (hops i hi)
  refine ⟨t, rs, hrun, hresponses, hlength, discards evs, ?_, ?_⟩
  · have hscanned := hscan.length_eq
    rwa [hbuf, List.nil_append, width_eq, ← hwindows] at hscanned
  · rw [ht, hmalf, BitVec.zero_add, BitVec.toNat_ofNat]

/-- Settles O15: a head is at most 0xFF, and at most that many bytes wait behind it. -/
theorem restBoundsTheBuffer : Obligations.RestBoundsTheBuffer :=
  fun _ h => ⟨length_le_of_atRest h, head_of_full_atRest h⟩

/-- Settles O16, by the rows of the table; a head at rest is not zero and its window is not complete. -/
theorem controlStateIsATableOnTheBuffer : Obligations.ControlStateIsATableOnTheBuffer := by
  refine ⟨controlState_eq_empty_iff, controlState_eq_collect_iff, controlState_eq_zero_iff, controlState_eq_eval_iff,
    fun c hrest => ?_⟩
  cases hbuf : c.buf with
  | nil => exact .inl (controlState_of_nil hbuf)
  | cons head rest =>
    obtain ⟨h0, hl⟩ := (restShape_cons head rest).1 (hbuf ▸ hrest)
    exact .inr ⟨_, _, by rw [controlState_of_cons hbuf, if_neg h0, if_pos hl]⟩

/-- Settles O37: the buffer and the byte are at rest. -/
theorem feedStallsOnAnIncompleteWindow : Obligations.FeedStallsOnAnIncompleteWindow := by
  intro s b head rest hinit hbytes hhead hlen
  have hrest : restShape (s.st.buf ++ (Instr.feed b).delivers) = true := by
    rw [Instr.delivers, hbytes]
    exact (restShape_cons head rest).2 ⟨hhead, hlen⟩
  exact exec_receive_of_atRest hinit rfl (atRest_of_append hrest) hrest

/-- Settles O40: the scan discards the byte. -/
theorem zeroHeadsAreDiscardedAtOnce : Obligations.ZeroHeadsAreDiscardedAtOnce := by
  intro s hinit hbuf
  have hscan : Scans (s.st.bufPush 0x00#8).buf [.discard 0x00#8] [] := by
    rw [bufPush_buf, hbuf]
    exact .zero (.rest restShape_nil)
  have hmalf : s.st.malf + 1#32 = BitVec.ofNat 32 ((s.st.malf.toNat + 1) % 2 ^ 32) :=
    BitVec.eq_of_toNat_eq (by simp)
  rw [exec_feed hinit, receive_singleton, extract_of_scans hscan, ← hmalf, ← hinit]
  rfl

end Sys2Proof.Machine
end

section
/-! SUPPORT. The two must-be-0 fields of RESET and STATUS (R74), and the bytes of the status record as numbers (R27). -/

namespace Sys2Proof

/-! ### The must-be-0 fields of RESET and STATUS (R74) -/

theorem legalWhen_both_of_ne {a b : Byte} (h : a ≠ 0#8 ∨ b ≠ 0#8) (i : Instr) (t : Transaction) :
    legalWhen (a = 0#8 && b = 0#8) i t = .illegal (.reservedField t.op t.a t.b) :=
  if_neg (by simpa [imp_iff_not_or] using h)

theorem decode_reset_reserved {a b : Byte} (h : a ≠ 0#8 ∨ b ≠ 0#8) (data : List Byte) :
    decode ⟨0x01#8, a, b, data⟩ = .illegal (.reservedField 0x01#8 a b) :=
  legalWhen_both_of_ne h .reset ⟨0x01#8, a, b, data⟩

theorem decode_status_reserved {a b : Byte} (h : a ≠ 0#8 ∨ b ≠ 0#8) (data : List Byte) :
    decode ⟨0x02#8, a, b, data⟩ = .illegal (.reservedField 0x02#8 a b) :=
  legalWhen_both_of_ne h .status ⟨0x02#8, a, b, data⟩

namespace Machine

/-! ### The status record (R27) -/

theorem statusFlags_of_init {c : Codec} (h : c.init = true) :
    statusFlags c = BitVec.ofNat 8 (if c.buf.length = 0 then 1 else 3) := by
  unfold statusFlags
  rw [if_pos h]
  cases c.buf with
  | nil => rfl
  | cons head rest => simp

theorem level_low_byte (c : Codec) : (level c).extractLsb' 0 8 = BitVec.ofNat 8 (c.buf.length % 256) := by
  refine BitVec.eq_of_toNat_eq ?_
  simp only [level, BitVec.extractLsb'_toNat, BitVec.toNat_ofNat, Nat.shiftRight_zero]
  omega

/-- Nine bits hold a LEVEL of at most 256 (R147), and the ninth is its byte 1. -/
theorem level_high_byte {c : Codec} (h : c.buf.length ≤ 256) :
    ((level c).extractLsb' 8 1).setWidth 8 = BitVec.ofNat 8 (c.buf.length / 256) := by
  refine BitVec.eq_of_toNat_eq ?_
  simp only [level, BitVec.toNat_setWidth, BitVec.extractLsb'_toNat, BitVec.toNat_ofNat, Nat.shiftRight_eq_div_pow]
  omega

theorem counter_byte (m : Counter) (k : Nat) : m.extractLsb' k 8 = BitVec.ofNat 8 (m.toNat / 2 ^ k % 256) := by
  refine BitVec.eq_of_toNat_eq ?_
  simp [Nat.shiftRight_eq_div_pow]

/-- Nothing is above the highest byte of the 32-bit counter (R8). -/
theorem counter_high_byte (m : Counter) : m.extractLsb' 24 8 = BitVec.ofNat 8 (m.toNat / 2 ^ 24) := by
  rw [counter_byte, Nat.mod_eq_of_lt (by omega)]

end Machine

end Sys2Proof
end

section
/-! The family `43_control.md`: RESET (R180) and STATUS (R181). -/

namespace Sys2Proof.Machine

/-- Settles O25: the flags, LEVEL and MALF byte by byte; a LEVEL at rest fits its nine bits. -/
theorem statusAnswersTheStatusRecord : Obligations.StatusAnswersTheStatusRecord := by
  refine ⟨fun s h hrest => ?_, fun s h hrest => head_of_full_atRest (hrest h), fun s h => exec_of_not_init h nofun,
    fun _ => rfl, fun a b data hne => decode_status_reserved hne data⟩
  have hlevel := length_le_of_atRest (hrest h)
  rw [exec_status h, statusRecord, statusFlags_of_init h, level_low_byte, level_high_byte hlevel, counter_byte _ 0,
    counter_byte _ 8, counter_byte _ 16, counter_high_byte, Nat.pow_zero, Nat.div_one]
  rfl

/-- Settles O17: the codec's reset is the reset values whatever it held, and both fields must be 0. -/
theorem resetGivesTheResetValues : Obligations.ResetGivesTheResetValues :=
  ⟨exec_reset, fun _ => rfl, fun _ _ data hne => decode_reset_reserved hne data⟩

end Sys2Proof.Machine
end

section
/-! SUPPORT. The status codes and their inverse reading (R201). -/

namespace Sys2Proof.Machine

theorem Status.code_lt_four (e : Status) : e.code.toNat < 4 := by
  cases e <;> decide

@[simp] theorem statusOfCode_code (e : Status) : statusOfCode e.code = some e := by
  cases e <;> rfl

/-- Each branch of the reading names the status whose code it has tested for. -/
theorem code_of_statusOfCode {c : Byte} {e : Status} (h : statusOfCode c = some e) : e.code = c := by
  unfold statusOfCode at h
  split_ifs at h with h0 h1 h2 h3 <;> cases h
  · exact h0.symm
  · exact h1.symm
  · exact h2.symm
  · exact h3.symm

theorem statusOfCode_eq_some_iff {c : Byte} {e : Status} : statusOfCode c = some e ↔ e.code = c :=
  ⟨code_of_statusOfCode, fun h => h ▸ statusOfCode_code e⟩

/-- The reserved codes name no status, as every code is below 4 (R201). -/
theorem statusOfCode_of_four_le {c : Byte} (h : 4 ≤ c.toNat) : statusOfCode c = none := by
  refine Option.eq_none_iff_forall_ne_some.2 fun e he => ?_
  have hlt := e.code_lt_four
  rw [code_of_statusOfCode he] at hlt
  omega

end Sys2Proof.Machine
end

section
/-! The family `60_exceptions.md`: the status codes (R201) and the bytes of a response (R75). -/

namespace Sys2Proof.Machine

/-- Settles O24: reading a code inverts the table of codes, whose entries are all below 4. -/
theorem statusCodesAreFour : Obligations.StatusCodesAreFour :=
  ⟨rfl, rfl, rfl, rfl, fun _ _ => statusOfCode_eq_some_iff, fun _ => statusOfCode_of_four_le, fun _ => rfl⟩

end Sys2Proof.Machine
end
